-- ==== Sys2Proof/Word.lean ====
section
/-! DEFINITION. The word and byte types of SRC (00_scope.md R4: every width is fixed). -/

namespace Sys2Proof

/-- A 32-bit value: a general register, `PC`, `IR`, `IPC`, `II`, an address (R4, R20). -/
abbrev Word := BitVec 32

/-- One addressable unit of `Mem` (R34). -/
abbrev Byte := BitVec 8

end Sys2Proof
end

