-- ==== Sys2Proof/Syntax.lean ====
section
/-! DEFINITION. The instructions of SRC as data: one constructor for every row of spec/opcode_table.json (28
instructions, 4 reserved operation codes, 11 named branch forms), its arguments the fields the row names. -/

namespace Sys2Proof

/-- A register number, the value of a field `ra`, `rb` or `rc` (R20, R70). -/
abbrev Reg := Fin 32

/-- The branch condition selected by `c3〈2..0〉` (R76); 6 and 7 have no arm in `cond` (R77). -/
inductive Cond where
  | never | always | zero | nonzero | plus | minus | reserved6 | reserved7
  deriving DecidableEq, Repr

/-- An instruction (R80). `c2` is the 17-bit short displacement or immediate, `c1` the 22-bit long displacement, `c3`
the five count bits `c3〈4..0〉` of a shift (R70, R78, R79). -/
inductive Instr where
  | nop
  | ld (ra rb : Reg) (c2 : BitVec 17)
  | ldr (ra : Reg) (c1 : BitVec 22)
  | st (ra rb : Reg) (c2 : BitVec 17)
  | str (ra : Reg) (c1 : BitVec 22)
  | la (ra rb : Reg) (c2 : BitVec 17)
  | lar (ra : Reg) (c1 : BitVec 22)
  | br (rb rc : Reg) (cond : Cond)
  | brl (ra rb rc : Reg) (cond : Cond)
  | een
  | edi
  | add (ra rb rc : Reg)
  | addi (ra rb : Reg) (c2 : BitVec 17)
  | sub (ra rb rc : Reg)
  | neg (ra rc : Reg)
  | svi (ra rb : Reg)
  | ri (ra rb : Reg)
  | and (ra rb rc : Reg)
  | andi (ra rb : Reg) (c2 : BitVec 17)
  | or (ra rb rc : Reg)
  | ori (ra rb : Reg) (c2 : BitVec 17)
  | not (ra rc : Reg)
  | shr (ra rb rc : Reg) (c3 : BitVec 5)
  | shra (ra rb rc : Reg) (c3 : BitVec 5)
  | shl (ra rb rc : Reg) (c3 : BitVec 5)
  | shc (ra rb rc : Reg) (c3 : BitVec 5)
  | rfi
  | stop
  /-- `op` = 7 (R81). -/
  | reservedOp7
  /-- `op` = 18 (R81). -/
  | reservedOp18
  /-- `op` = 19 (R81). -/
  | reservedOp19
  /-- `op` = 25 (R81). -/
  | reservedOp25
  /-- `br rb`: `br` with `c3〈2..0〉` = 1 (R112; the row carries `rc`, which is not read). -/
  | brAlways (rb rc : Reg)
  | brzr (rb rc : Reg)
  | brnz (rb rc : Reg)
  | brpl (rb rc : Reg)
  | brmi (rb rc : Reg)
  /-- `brl ra, rb`: `brl` with `c3〈2..0〉` = 1 (R112; `rc` is not read). -/
  | brlAlways (ra rb rc : Reg)
  /-- `brlnv ra`: `brl` with `c3〈2..0〉` = 0 (R112; `rb` and `rc` are not read). -/
  | brlnv (ra rb rc : Reg)
  | brlzr (ra rb rc : Reg)
  | brlnz (ra rb rc : Reg)
  | brlpl (ra rb rc : Reg)
  | brlmi (ra rb rc : Reg)
  deriving DecidableEq, Repr

end Sys2Proof
end

