-- ==== Sys2Proof/WellFormed.lean ====
section
/-! DEFINITION. Which terms of `Instr` are the decoder's reading of some word (`Instr.wellFormed`), and which
encodings the spec gives no unconditional meaning (`Instr.reservedEncoding`, R83). -/

namespace Sys2Proof

/-- Whether the opcode table has a named row for `br` with this condition (R112). -/
def Cond.hasBrName : Cond → Bool
  | .always | .zero | .nonzero | .plus | .minus => true
  | .never | .reserved6 | .reserved7 => false

/-- Whether the opcode table has a named row for `brl` with this condition (R112). -/
def Cond.hasBrlName : Cond → Bool
  | .never | .always | .zero | .nonzero | .plus | .minus => true
  | .reserved6 | .reserved7 => false

/-- Every field of `Instr` is in range by its type, so the one check left is that a word is read under ONE name: a
branch whose condition has a row of its own in the opcode table is written with that row's constructor, never with the
general `br` or `brl` (R112: the named forms are the same instruction; DESIGN CHOICE, safe, log entry 18). -/
def Instr.wellFormed : Instr → Bool
  | .br _ _ c => !c.hasBrName
  | .brl _ _ _ c => !c.hasBrlName
  | .nop | .ld .. | .ldr .. | .st .. | .str .. | .la .. | .lar .. | .een | .edi | .add .. | .addi .. | .sub ..
  | .neg .. | .svi .. | .ri .. | .and .. | .andi .. | .or .. | .ori .. | .not .. | .shr .. | .shra .. | .shl ..
  | .shc .. | .rfi | .stop | .reservedOp7 | .reservedOp18 | .reservedOp19 | .reservedOp25 | .brAlways .. | .brzr ..
  | .brnz .. | .brpl .. | .brmi .. | .brlAlways .. | .brlnv .. | .brlzr .. | .brlnz .. | .brlpl .. | .brlmi .. => true

/-- The conditions without an arm in `cond` (R77). -/
def Cond.isReserved : Cond → Bool
  | .reserved6 | .reserved7 => true
  | .never | .always | .zero | .nonzero | .plus | .minus => false

/-- The encodings R83 lists as reserved or refused: a reserved operation code (R81), a reserved condition of `br` or
`brl` (R77), `svi` with `ra = rb` (R153). "No other field value of any instruction is illegal." -/
def Instr.reservedEncoding : Instr → Bool
  | .reservedOp7 | .reservedOp18 | .reservedOp19 | .reservedOp25 => true
  | .br _ _ c => c.isReserved
  | .brl _ _ _ c => c.isReserved
  | .svi ra rb => ra == rb
  | .nop | .ld .. | .ldr .. | .st .. | .str .. | .la .. | .lar .. | .een | .edi | .add .. | .addi .. | .sub ..
  | .neg .. | .ri .. | .and .. | .andi .. | .or .. | .ori .. | .not .. | .shr .. | .shra .. | .shl ..
  | .shc .. | .rfi | .stop | .brAlways .. | .brzr ..
  | .brnz .. | .brpl .. | .brmi .. | .brlAlways .. | .brlnv .. | .brlzr .. | .brlnz .. | .brlpl .. | .brlmi .. => false

end Sys2Proof
end

