-- ==== Sys2Proof/Decode.lean ====
section
/-! DEFINITION. From bits to an instruction and back (30_encoding.md). The fields of a word (R70), the decoder of a
word (total, R83), the decoder of a list of bytes (rejects a list that is too short, by name), the encoder (R84), and
the host's `decodeTableWord`. -/

namespace Sys2Proof

/-! ## The fields of an instruction word (R70) -/

/-- `op〈4..0〉 := IR〈31..27〉`. -/
def opField (w : Word) : BitVec 5 := w.extractLsb' 27 5

/-- `ra〈4..0〉 := IR〈26..22〉`. -/
def raField (w : Word) : Reg := (w.extractLsb' 22 5).toFin

/-- `rb〈4..0〉 := IR〈21..17〉`. -/
def rbField (w : Word) : Reg := (w.extractLsb' 17 5).toFin

/-- `rc〈4..0〉 := IR〈16..12〉`. -/
def rcField (w : Word) : Reg := (w.extractLsb' 12 5).toFin

/-- `c1〈21..0〉 := IR〈21..0〉`. -/
def c1Field (w : Word) : BitVec 22 := w.extractLsb' 0 22

/-- `c2〈16..0〉 := IR〈16..0〉`. -/
def c2Field (w : Word) : BitVec 17 := w.extractLsb' 0 17

/-- `c3〈11..0〉 := IR〈11..0〉`. -/
def c3Field (w : Word) : BitVec 12 := w.extractLsb' 0 12

/-- `c3〈2..0〉`, the selector of a branch condition (R76). -/
def condField (w : Word) : BitVec 3 := (c3Field w).extractLsb' 0 3

/-- `c3〈4..0〉`, the constant count of a shift (R78). -/
def countField (w : Word) : BitVec 5 := (c3Field w).extractLsb' 0 5

/-- The condition a selector stands for (R76, R77). -/
def Cond.ofBits (b : BitVec 3) : Cond :=
  match b.toFin with
  | 0 => .never
  | 1 => .always
  | 2 => .zero
  | 3 => .nonzero
  | 4 => .plus
  | 5 => .minus
  | 6 => .reserved6
  | 7 => .reserved7

/-- The selector of a condition (R76, R77). -/
def Cond.toBits : Cond → BitVec 3
  | .never => 0
  | .always => 1
  | .zero => 2
  | .nonzero => 3
  | .plus => 4
  | .minus => 5
  | .reserved6 => 6
  | .reserved7 => 7

/-! ## The decoder -/

/-- `br` under the name the opcode table gives its condition (R112), the general form where it gives none. -/
def brOfCond (rb rc : Reg) : Cond → Instr
  | .always => .brAlways rb rc
  | .zero => .brzr rb rc
  | .nonzero => .brnz rb rc
  | .plus => .brpl rb rc
  | .minus => .brmi rb rc
  | .never => .br rb rc .never
  | .reserved6 => .br rb rc .reserved6
  | .reserved7 => .br rb rc .reserved7

/-- `brl` under the name the opcode table gives its condition (R112), the general form where it gives none. -/
def brlOfCond (ra rb rc : Reg) : Cond → Instr
  | .never => .brlnv ra rb rc
  | .always => .brlAlways ra rb rc
  | .zero => .brlzr ra rb rc
  | .nonzero => .brlnz ra rb rc
  | .plus => .brlpl ra rb rc
  | .minus => .brlmi ra rb rc
  | .reserved6 => .brl ra rb rc .reserved6
  | .reserved7 => .brl ra rb rc .reserved7

/-- The instruction of a word, selected by its top five bits alone (R80); every word has one (R83). Bits the
instruction does not read are ignored (R73, D5, log entry 5). -/
def decodeWord (w : Word) : Instr :=
  match (opField w).toFin with
  | 0 => .nop
  | 1 => .ld (raField w) (rbField w) (c2Field w)
  | 2 => .ldr (raField w) (c1Field w)
  | 3 => .st (raField w) (rbField w) (c2Field w)
  | 4 => .str (raField w) (c1Field w)
  | 5 => .la (raField w) (rbField w) (c2Field w)
  | 6 => .lar (raField w) (c1Field w)
  | 7 => .reservedOp7
  | 8 => brOfCond (rbField w) (rcField w) (Cond.ofBits (condField w))
  | 9 => brlOfCond (raField w) (rbField w) (rcField w) (Cond.ofBits (condField w))
  | 10 => .een
  | 11 => .edi
  | 12 => .add (raField w) (rbField w) (rcField w)
  | 13 => .addi (raField w) (rbField w) (c2Field w)
  | 14 => .sub (raField w) (rbField w) (rcField w)
  | 15 => .neg (raField w) (rcField w)
  | 16 => .svi (raField w) (rbField w)
  | 17 => .ri (raField w) (rbField w)
  | 18 => .reservedOp18
  | 19 => .reservedOp19
  | 20 => .and (raField w) (rbField w) (rcField w)
  | 21 => .andi (raField w) (rbField w) (c2Field w)
  | 22 => .or (raField w) (rbField w) (rcField w)
  | 23 => .ori (raField w) (rbField w) (c2Field w)
  | 24 => .not (raField w) (rcField w)
  | 25 => .reservedOp25
  | 26 => .shr (raField w) (rbField w) (rcField w) (countField w)
  | 27 => .shra (raField w) (rbField w) (rcField w) (countField w)
  | 28 => .shl (raField w) (rbField w) (rcField w) (countField w)
  | 29 => .shc (raField w) (rbField w) (rcField w) (countField w)
  | 30 => .rfi
  | 31 => .stop
  | ⟨n + 32, h⟩ => absurd h (by omega)

/-- Why a list of bytes holds no instruction. -/
inductive DecodeReject where
  /-- Fewer than the four bytes every instruction has (R71). Raised by `decode` only: the fetch always has four. -/
  | tooShort
  deriving DecidableEq, Repr

/-- Four bytes as a word, the first the most significant (R52, R65). -/
def wordOfBytes (b0 b1 b2 b3 : Byte) : Word := b0 ++ b1 ++ b2 ++ b3

/-- The bytes of a word in the order memory holds them (R53). -/
def bytesOfWord (w : Word) : List Byte :=
  [w.extractLsb' 24 8, w.extractLsb' 16 8, w.extractLsb' 8 8, w.extractLsb' 0 8]

/-- The instruction at the head of a list of bytes and the bytes after it (R65, R71). -/
def decode : List Byte → Except DecodeReject (Instr × List Byte)
  | b0 :: b1 :: b2 :: b3 :: rest => .ok (decodeWord (wordOfBytes b0 b1 b2 b3), rest)
  | _ => .error .tooShort

/-! ## The encoder (R84): fields an instruction does not name are 0 -/

/-- A register number as its field. -/
def regBits (r : Reg) : BitVec 5 := BitVec.ofFin r

/-- `op`, `ra`, `rb`, `rc`, `c3`: the register forms. -/
def packRegs (op : BitVec 5) (ra rb rc : Reg) (c3 : BitVec 12) : Word :=
  op ++ regBits ra ++ regBits rb ++ regBits rc ++ c3

/-- `op`, `ra`, `rb`, `c2`: the displacement and immediate forms. -/
def packC2 (op : BitVec 5) (ra rb : Reg) (c2 : BitVec 17) : Word :=
  op ++ regBits ra ++ regBits rb ++ c2

/-- `op`, `ra`, `c1`: the relative forms. -/
def packC1 (op : BitVec 5) (ra : Reg) (c1 : BitVec 22) : Word :=
  op ++ regBits ra ++ c1

/-- A branch: the condition in `c3〈2..0〉`, the bits above it 0. -/
def packBranch (op : BitVec 5) (ra rb rc : Reg) (c : Cond) : Word :=
  packRegs op ra rb rc ((0 : BitVec 9) ++ c.toBits)

/-- A shift: the constant count in `c3〈4..0〉`, the bits above it 0. -/
def packShift (op : BitVec 5) (ra rb rc : Reg) (c3 : BitVec 5) : Word :=
  packRegs op ra rb rc ((0 : BitVec 7) ++ c3)

/-- The word of an instruction (R80, R84). -/
def encode : Instr → Word
  | .nop => packRegs 0 0 0 0 0
  | .ld ra rb c2 => packC2 1 ra rb c2
  | .ldr ra c1 => packC1 2 ra c1
  | .st ra rb c2 => packC2 3 ra rb c2
  | .str ra c1 => packC1 4 ra c1
  | .la ra rb c2 => packC2 5 ra rb c2
  | .lar ra c1 => packC1 6 ra c1
  | .br rb rc c => packBranch 8 0 rb rc c
  | .brl ra rb rc c => packBranch 9 ra rb rc c
  | .een => packRegs 10 0 0 0 0
  | .edi => packRegs 11 0 0 0 0
  | .add ra rb rc => packRegs 12 ra rb rc 0
  | .addi ra rb c2 => packC2 13 ra rb c2
  | .sub ra rb rc => packRegs 14 ra rb rc 0
  | .neg ra rc => packRegs 15 ra 0 rc 0
  | .svi ra rb => packRegs 16 ra rb 0 0
  | .ri ra rb => packRegs 17 ra rb 0 0
  | .and ra rb rc => packRegs 20 ra rb rc 0
  | .andi ra rb c2 => packC2 21 ra rb c2
  | .or ra rb rc => packRegs 22 ra rb rc 0
  | .ori ra rb c2 => packC2 23 ra rb c2
  | .not ra rc => packRegs 24 ra 0 rc 0
  | .shr ra rb rc c3 => packShift 26 ra rb rc c3
  | .shra ra rb rc c3 => packShift 27 ra rb rc c3
  | .shl ra rb rc c3 => packShift 28 ra rb rc c3
  | .shc ra rb rc c3 => packShift 29 ra rb rc c3
  | .rfi => packRegs 30 0 0 0 0
  | .stop => packRegs 31 0 0 0 0
  | .reservedOp7 => packRegs 7 0 0 0 0
  | .reservedOp18 => packRegs 18 0 0 0 0
  | .reservedOp19 => packRegs 19 0 0 0 0
  | .reservedOp25 => packRegs 25 0 0 0 0
  | .brAlways rb rc => packBranch 8 0 rb rc .always
  | .brzr rb rc => packBranch 8 0 rb rc .zero
  | .brnz rb rc => packBranch 8 0 rb rc .nonzero
  | .brpl rb rc => packBranch 8 0 rb rc .plus
  | .brmi rb rc => packBranch 8 0 rb rc .minus
  | .brlAlways ra rb rc => packBranch 9 ra rb rc .always
  | .brlnv ra rb rc => packBranch 9 ra rb rc .never
  | .brlzr ra rb rc => packBranch 9 ra rb rc .zero
  | .brlnz ra rb rc => packBranch 9 ra rb rc .nonzero
  | .brlpl ra rb rc => packBranch 9 ra rb rc .plus
  | .brlmi ra rb rc => packBranch 9 ra rb rc .minus

/-! ## The host's view of the decoder -/

/-- What the decoder reads from an instruction of spec/opcode_table.json given as a number: the word laid out in
memory order (R53) and handed to `decode`; bits at and above `nbits` are 0. -/
def decodeTableWord (nbits w : Nat) : Option Instr :=
  match decode (bytesOfWord (BitVec.ofNat 32 (w % 2 ^ nbits))) with
  | .ok (i, _) => some i
  | .error _ => none

end Sys2Proof
end

