-- ==== Sys2Proof/Config.lean ====
section
/-! DEFINITION. What the spec leaves to the platform (00_scope.md R5): the parameters `ReservedOpcode` and
`ReservedCond` with the spec's defaults, and what a byte of memory that nothing has written reads as. `MemMap` is the
spec's default (every address plain storage, D10); `Env` is a list in State; `ResetUnspecified` is the choice of the
reset values in State. -/

namespace Sys2Proof

/-- The parameter `ReservedOpcode` (R81, D3): what a word with `op` = 7, 18, 19 or 25 does. -/
inductive ReservedOpcode where
  /-- The spec's default: the model gives the word no meaning. -/
  | refuse
  /-- The spec's alternative, the literal RTN: only the fetch's `PC ← PC + 4`. -/
  | nop
  deriving DecidableEq, Repr

/-- The parameter `ReservedCond` (R77, D4): what `br`/`brl` with `c3〈2..0〉` = 6 or 7 does. -/
inductive ReservedCond where
  /-- The spec's default: the model gives the instruction no meaning. -/
  | refuse
  /-- The spec's alternative: the condition is false (`brl` still links). -/
  | never
  deriving DecidableEq, Repr

/-- The parameters of one machine; no step changes them. -/
structure Params where
  reservedOpcode : ReservedOpcode
  reservedCond : ReservedCond
  deriving DecidableEq, Repr

/-- The defaults the spec recommends (92_eei_decisions.md D3, D4). -/
def Params.default : Params := { reservedOpcode := .refuse, reservedCond := .refuse }

/-- What a byte of `Mem` that nothing has written reads as. DESIGN CHOICE (unsafe, log entry 10): the spec gives
unloaded memory no contents (R45, D7). -/
def Config.unlistedByte : Byte := 0

end Sys2Proof
end

