-- ==== Sys2Proof/Machine/State.lean ====
section
/-! DEFINITION. The state of SRC (10_state.md), the environment's inputs and events as plain data, the reasons a step
can stop, and the state after reset. -/

namespace Sys2Proof.Machine

/-- `Mem` (R34): address and byte pairs, addresses strictly rising, none equal to what an unlisted address reads as
(`Memory.wf`). -/
abbrev Memory := List Host.Cell

/-- What the environment drives for one step (D8): the levels of `Strt` and `ireq`, the values the interrupt source
presents, and whether it raises the latch `Rst` before the step. -/
structure EnvInput where
  strt : Bool
  raiseRst : Bool
  ireq : Bool
  isrcInfo : BitVec 16
  isrcVect : BitVec 8
  deriving DecidableEq, Repr

/-- One acknowledge event (R175, D9): what the interrupt entry read from the source. -/
structure AckEvent where
  isrcVect : BitVec 8
  isrcInfo : BitVec 16
  deriving DecidableEq, Repr

/-- The state of the machine: the spec's items (R20 to R43), then the model's own `env`, `acks` and `params`. -/
structure State where
  /-- `R[0..31]〈31..0〉` (R20); none is hardwired (R21). -/
  regs : Vector Word 32
  /-- `PC〈31..0〉` (R24). -/
  pc : Word
  /-- `IR〈31..0〉` (R28). -/
  ir : Word
  /-- `Run` (R29). -/
  run : Bool
  /-- `IE` (R30). -/
  ie : Bool
  /-- `IPC〈31..0〉` (R31). -/
  ipc : Word
  /-- `II〈31..0〉` (R32); `II〈31..16〉` is written by nothing. -/
  ii : Word
  /-- `Mem` (R34). -/
  mem : Memory
  /-- `Strt` (R38). -/
  strt : Bool
  /-- `Rst`, a latch (R39). -/
  rst : Bool
  /-- `ireq` (R40). -/
  ireq : Bool
  /-- `iack` between steps (R41). -/
  iack : Bool
  /-- `Isrc_info〈15..0〉` (R42). -/
  isrcInfo : BitVec 16
  /-- `Isrc_vect〈7..0〉` (R43). -/
  isrcVect : BitVec 8
  /-- MODEL'S OWN: the inputs of the coming steps, the next first; when empty the levels stay (D8, log entry 11). -/
  env : List EnvInput
  /-- MODEL'S OWN: the acknowledge events so far, oldest first (R175, log entry 12). -/
  acks : List AckEvent
  /-- MODEL'S OWN: the spec's parameters (R5, log entries 3 and 4); no step writes them. -/
  params : Params
  deriving DecidableEq, Repr

/-- Why a step stops with a fault. The machine itself has no fault (R180). -/
inductive Fault where
  /-- Raised by `step` when `Run` = 0 and `Strt` = 0: "the machine has no step" (R206). Safe: nothing is claimed of a
  halted machine (log entry 16). -/
  | halted
  deriving DecidableEq, Repr

/-- Why an instruction has no meaning here. -/
inductive Refusal where
  /-- An arm of `exec` without its meaning yet. Safe. -/
  | notModelled (mnemonic : String)
  /-- Raised by the four reserved operation codes under `ReservedOpcode` = refuse (R81, D3). Safe. -/
  | reservedOpcode
  /-- Raised by `br`/`brl` with `c3〈2..0〉` = 6 or 7 under `ReservedCond` = refuse (R77, D4). Safe. -/
  | reservedCond
  /-- Raised by `svi` with `ra = rb`: the spec's SviSameRegister (R153, D6). Safe. -/
  | sviSameRegister
  deriving DecidableEq, Repr

/-- The machine right after reset: the fully initialised state of R203 (a hard reset, then a soft reset), in which the
spec gives `pc` = 0, all registers 0, `ie` = 0, `run` = 1, `rst` = 0 (log entry 7). DESIGN CHOICE: every other register
and input 0 (log entries 8, 9), memory with nothing listed (log entry 10), no pending input and no event (log entries
11, 12), the spec's default parameters (log entries 3, 4). -/
def State.reset : State where
  regs := Vector.replicate 32 0
  pc := 0
  ir := 0
  run := true
  ie := false
  ipc := 0
  ii := 0
  mem := []
  strt := false
  rst := false
  ireq := false
  iack := false
  isrcInfo := 0
  isrcVect := 0
  env := []
  acks := []
  params := Params.default

end Sys2Proof.Machine
end

