-- ==== Sys2Proof/Machine/Ops.lean ====
section
/-! DEFINITION. The named operations over memory and registers, the arms of a step that execute no instruction (hard
reset, soft reset, interrupt entry), the return from an interrupt, and the fetch. -/

namespace Sys2Proof.Machine

/-! ## Memory (20_memory.md) -/

/-- One byte; what an unlisted address reads as is `Config.unlistedByte`. -/
def Memory.read : Memory → Nat → Byte
  | [], _ => Config.unlistedByte
  | (k, v) :: m, a => if k = a then v else Memory.read m a

/-- List an address in its place among rising addresses. -/
def Memory.insert : Memory → Nat → Byte → Memory
  | [], a, b => [(a, b)]
  | (k, v) :: m, a, b => if a < k then (a, b) :: (k, v) :: m else (k, v) :: Memory.insert m a b

/-- Take an address off the list. -/
def Memory.erase (m : Memory) (a : Nat) : Memory := m.filter fun c => c.1 != a

/-- Write one byte, keeping the canonical form: a byte equal to what an unlisted address reads as is not listed. -/
def Memory.write (m : Memory) (a : Nat) (b : Byte) : Memory :=
  if b = Config.unlistedByte then m.erase a else (m.erase a).insert a b

/-- Addresses strictly rising from `lo` on, all below 2^32 (R50), no entry equal to what an unlisted address reads as. -/
def Memory.wfFrom (lo : Nat) : Memory → Bool
  | [] => true
  | (k, v) :: m => decide (lo ≤ k) && decide (k < 2 ^ 32) && (v != Config.unlistedByte) && Memory.wfFrom (k + 1) m

/-- The canonical form of memory. -/
def Memory.wf (m : Memory) : Bool := m.wfFrom 0

/-- The byte at a 32-bit address. -/
def State.readByte (s : State) (a : Word) : Byte := s.mem.read a.toNat

/-- Write the byte at a 32-bit address. -/
def State.writeByte (s : State) (a : Word) (b : Byte) : State := { s with mem := s.mem.write a.toNat b }

/-- `M[x]〈31..0〉 := Mem[x]#Mem[x+1]#Mem[x+2]#Mem[x+3]` (R35, R52), big-endian, the byte addresses modulo 2^32 (R54, D2,
log entry 2), at any byte address (R55, D1, log entry 1). -/
def State.readWord (s : State) (a : Word) : Word :=
  s.readByte a ++ s.readByte (a + 1) ++ s.readByte (a + 2) ++ s.readByte (a + 3)

/-- `M[x] ← v` (R53): `Mem[a] <- v[31:24]` … `Mem[a+3] <- v[7:0]`, no other byte. -/
def State.writeWord (s : State) (a v : Word) : State :=
  (((s.writeByte a (v.extractLsb' 24 8)).writeByte (a + 1) (v.extractLsb' 16 8)).writeByte (a + 2)
    (v.extractLsb' 8 8)).writeByte (a + 3) (v.extractLsb' 0 8)

/-! ## Registers (10_state.md) -/

/-- `x[i]`: no register is hardwired (R21). -/
def State.readReg (s : State) (r : Reg) : Word := s.regs[r.val]

/-- `x[i] <- v`. -/
def State.writeReg (s : State) (r : Reg) (v : Word) : State := { s with regs := s.regs.set r.val v }

/-- `v` with its low half replaced: `v[31:16] ++ lo`. -/
def withLowHalf (v : Word) (lo : BitVec 16) : Word := v.extractLsb' 16 16 ++ lo

/-- The low half of a word, `v[15:0]`. -/
def lowHalf (v : Word) : BitVec 16 := v.extractLsb' 0 16

/-- `x[i][15:0] <- lo`, the upper half unchanged (R12; only `svi` does this). -/
def State.writeRegLow (s : State) (r : Reg) (lo : BitVec 16) : State := s.writeReg r (withLowHalf (s.readReg r) lo)

/-- `pc <- t`: all 32 bits, none masked (R25). -/
def State.setPc (s : State) (t : Word) : State := { s with pc := t }

/-- `ie <- b`. -/
def State.setIe (s : State) (b : Bool) : State := { s with ie := b }

/-- `run <- b`. -/
def State.setRun (s : State) (b : Bool) : State := { s with run := b }

/-- `ipc <- v`. -/
def State.setIpc (s : State) (v : Word) : State := { s with ipc := v }

/-- `ii[15:0] <- lo`; `ii[31:16]` is untouched (R32). -/
def State.setIiLow (s : State) (lo : BitVec 16) : State := { s with ii := withLowHalf s.ii lo }

/-! ## The environment (D8) -/

/-- Sample the environment's input for this step: levels are taken over, `Rst` can only be raised (R39). With no input
listed the levels stay (log entry 11). -/
def State.sampleInputs (s : State) : State :=
  match s.env with
  | [] => s
  | e :: rest =>
    { s with
      env := rest, strt := e.strt, rst := s.rst || e.raiseRst, ireq := e.ireq, isrcInfo := e.isrcInfo,
      isrcVect := e.isrcVect }

/-! ## The arms of a step (60_exceptions.md R176) -/

/-- The four arms of `instruction_interpretation`, and none. -/
inductive Arm where
  | hardReset | softReset | interruptEntry | normalFetch | halted
  deriving DecidableEq, Repr

/-- The arm whose guard holds (R176, in its order). -/
def State.arm (s : State) : Arm :=
  if !s.run && s.strt then .hardReset
  else if s.run && s.rst then .softReset
  else if s.run && !s.rst && (s.ireq && s.ie) then .interruptEntry
  else if s.run && !s.rst && !(s.ireq && s.ie) then .normalFetch
  else .halted

/-- Hard reset (R200): `Run ← 1: PC, R[0..31] ← 0`. -/
def State.hardReset (s : State) : State := { s with run := true, pc := 0, regs := Vector.replicate 32 0 }

/-- Soft reset (R201): `Rst ← 0: IE ← 0: PC ← 0`. -/
def State.softReset (s : State) : State := { s with rst := false, ie := false, pc := 0 }

/-- `Ivect〈31..0〉 := 20@0#Isrc_vect〈7..0〉#4@0` (R44, R173). -/
def ivect (v : BitVec 8) : Word := (0 : BitVec 20) ++ v ++ (0 : BitVec 4)

/-- `iack ← 0`, after the parallel group of the entry (R174). -/
def State.dropIack (s : State) : State := { s with iack := false }

/-- Interrupt entry, the machine's one exception (R174): the parallel group `IPC ← PC: II〈15..0〉 ← Isrc_info〈15..0〉:
IE ← 0: PC ← Ivect: iack ← 1`, then `iack ← 0`; one acknowledge event is recorded (R175). -/
def State.enterInterrupt (s : State) : State :=
  State.dropIack
    { s with
      ipc := s.pc, ii := withLowHalf s.ii s.isrcInfo, ie := false, pc := ivect s.isrcVect, iack := true,
      acks := s.acks ++ [{ isrcVect := s.isrcVect, isrcInfo := s.isrcInfo }] }

/-- Return from an interrupt (R152, R178): `PC ← IPC: IE ← 1`, nothing else. -/
def State.returnFromInterrupt (s : State) : State := { s with pc := s.ipc, ie := true }

/-- The instruction word at `PC`: `M[PC]` (R65). -/
def State.fetchWord (s : State) : Word := s.readWord s.pc

/-- The state an instruction executes in (R26): `IR ← M[PC]: PC ← PC + 4`, the sum modulo 2^32 (log entry 2). -/
def State.afterFetch (s : State) : State := { s with ir := s.fetchWord, pc := s.pc + 4 }

end Sys2Proof.Machine
end

