-- ==== Sys2Proof/Machine/Operands.lean ====
section
/-! DEFINITION. Every operand form of SRC (30_encoding.md R74, R75, R78, R79). `s` is the state after the fetch: its
`pc` is the address of the instruction plus 4 (R26). -/

namespace Sys2Proof.Machine

/-- A 17-bit immediate, sign-extended for every user of it (R11, R79). -/
def imm17 (c2 : BitVec 17) : Word := c2.signExtend 32

/-- A 22-bit displacement, sign-extended (R11, R79). -/
def imm22 (c1 : BitVec 22) : Word := c1.signExtend 32

/-- `disp` (R74): the FIELD VALUE rb = 0 means no base register; the sum is modulo 2^32. -/
def disp (s : State) (rb : Reg) (c2 : BitVec 17) : Word :=
  if rb = 0 then imm17 c2 else s.readReg rb + imm17 c2

/-- `rel` (R75): the advanced `PC` plus the displacement, modulo 2^32. -/
def rel (s : State) (c1 : BitVec 22) : Word := s.pc + imm22 c1

/-- The shift count `n` (R78, R145): the constant where it is not 0, else the low five bits of `R[rc]`. -/
def shiftCount (s : State) (rc : Reg) (c3 : BitVec 5) : Nat :=
  if c3 = 0 then ((s.readReg rc).extractLsb' 0 5).toNat else c3.toNat

/-- `shr`'s result (R140): `rep(n, 0) ++ v[31:n]`. -/
def shiftRight (v : Word) (n : Nat) : Word := v >>> n

/-- `shra`'s result (R141): `rep(n, v[31]) ++ v[31:n]`. -/
def shiftRightArith (v : Word) (n : Nat) : Word := v.sshiftRight n

/-- `shl`'s result (R142): `v[31-n:0] ++ rep(n, 0)`. -/
def shiftLeft (v : Word) (n : Nat) : Word := v <<< n

/-- `shc`'s result (R143): the top `n` bits re-enter at the bottom; a count of 0 is the identity (R144, D12, log
entry 15). -/
def rotateLeft (v : Word) (n : Nat) : Word := if n = 0 then v else (v <<< n) ||| (v >>> (32 - n))

end Sys2Proof.Machine
end

