-- ==== Sys2Proof/Machine/Arithmetic.lean ====
section
/-! DEFINITION. Arithmetic and logic instructions (42_arithmetic.md R120 to R130): modulo 2^32, operands read before
the write, no flags, no trap. -/

namespace Sys2Proof.Machine

/-- `add → R[ra] ← R[rb] + R[rc]` (R120). -/
def execAdd (ra rb rc : Reg) (s : State) : Host.Outcome State Fault Refusal :=
  .next (s.writeReg ra (s.readReg rb + s.readReg rc))

/-- `addi → R[ra] ← R[rb] + c2〈16..0〉 {2's comp. sign ext.}` (R121); `rb` = 0 is an ordinary register. -/
def execAddi (ra rb : Reg) (c2 : BitVec 17) (s : State) : Host.Outcome State Fault Refusal :=
  .next (s.writeReg ra (s.readReg rb + imm17 c2))

/-- `sub → R[ra] ← R[rb] - R[rc]` (R122). -/
def execSub (ra rb rc : Reg) (s : State) : Host.Outcome State Fault Refusal :=
  .next (s.writeReg ra (s.readReg rb - s.readReg rc))

/-- `neg → R[ra] ← -R[rc]` (R123). -/
def execNeg (ra rc : Reg) (s : State) : Host.Outcome State Fault Refusal :=
  .next (s.writeReg ra (0 - s.readReg rc))

/-- `and → R[ra] ← R[rb] ∧ R[rc]` (R124). -/
def execAnd (ra rb rc : Reg) (s : State) : Host.Outcome State Fault Refusal :=
  .next (s.writeReg ra (s.readReg rb &&& s.readReg rc))

/-- `andi → R[ra] ← R[rb] ∧ c2〈16..0〉 {sign extend}` (R125). -/
def execAndi (ra rb : Reg) (c2 : BitVec 17) (s : State) : Host.Outcome State Fault Refusal :=
  .next (s.writeReg ra (s.readReg rb &&& imm17 c2))

/-- `or → R[ra] ← R[rb] ∨ R[rc]` (R126). -/
def execOr (ra rb rc : Reg) (s : State) : Host.Outcome State Fault Refusal :=
  .next (s.writeReg ra (s.readReg rb ||| s.readReg rc))

/-- `ori → R[ra] ← R[rb] ∨ c2〈16..0〉 {sign extend}` (R127). -/
def execOri (ra rb : Reg) (c2 : BitVec 17) (s : State) : Host.Outcome State Fault Refusal :=
  .next (s.writeReg ra (s.readReg rb ||| imm17 c2))

/-- `not → R[ra] ← ¬R[rc]` (R128). -/
def execNot (ra rc : Reg) (s : State) : Host.Outcome State Fault Refusal :=
  .next (s.writeReg ra (~~~s.readReg rc))

end Sys2Proof.Machine
end

