-- ==== Sys2Proof/Machine/Flags.lean ====
section
/-! DEFINITION. SRC has no flags and no condition codes (10_state.md R33): a branch tests a general register. This file
holds that test, `cond` (30_encoding.md R76, R77). -/

namespace Sys2Proof.Machine

/-- `cond` on the contents `v` of `R[rc]` (R76); no value for the two codes without an arm (R77). -/
def condValue (c : Cond) (v : Word) : Option Bool :=
  match c with
  | .never => some false
  | .always => some true
  | .zero => some (v == 0)
  | .nonzero => some (v != 0)
  | .plus => some (!v.getLsbD 31)
  | .minus => some (v.getLsbD 31)
  | .reserved6 => none
  | .reserved7 => none

/-- Whether the branch is taken; the parameter `ReservedCond` decides the codes without an arm (R77, D4, log entry 4). -/
def branchTaken (p : ReservedCond) (c : Cond) (v : Word) : Option Bool :=
  match condValue c v with
  | some b => some b
  | none =>
    match p with
    | .refuse => none
    | .never => some false

end Sys2Proof.Machine
end

