-- ==== Sys2Proof/Machine/Branch.lean ====
section
/-! DEFINITION. Branch instructions and their named forms (41_branch.md R110 to R113). -/

namespace Sys2Proof.Machine

/-- `cond → PC ← R[rb]` (R110). -/
def branch (c : Cond) (rb rc : Reg) (s : State) : Host.Outcome State Fault Refusal :=
  match branchTaken s.params.reservedCond c (s.readReg rc) with
  | none => .refused .reservedCond
  | some true => .next (s.setPc (s.readReg rb))
  | some false => .next s

/-- `R[ra] ← PC: cond → (PC ← R[rb])` (R111): the link is unconditional; `R[rb]` and `R[rc]` are read before any
write. -/
def branchLink (c : Cond) (ra rb rc : Reg) (s : State) : Host.Outcome State Fault Refusal :=
  match branchTaken s.params.reservedCond c (s.readReg rc) with
  | none => .refused .reservedCond
  | some true => .next ((s.writeReg ra s.pc).setPc (s.readReg rb))
  | some false => .next (s.writeReg ra s.pc)

/-- `br rb, rc, c3` (R110). -/
def execBr (rb rc : Reg) (c : Cond) (s : State) : Host.Outcome State Fault Refusal := branch c rb rc s

/-- `brl ra, rb, rc, c3` (R111). -/
def execBrl (ra rb rc : Reg) (c : Cond) (s : State) : Host.Outcome State Fault Refusal := branchLink c ra rb rc s

/-- `br rb` (R112: condition 1). -/
def execBrAlways (rb rc : Reg) (s : State) : Host.Outcome State Fault Refusal := branch .always rb rc s

/-- `brzr rb, rc` (R112: condition 2). -/
def execBrzr (rb rc : Reg) (s : State) : Host.Outcome State Fault Refusal := branch .zero rb rc s

/-- `brnz rb, rc` (R112: condition 3). -/
def execBrnz (rb rc : Reg) (s : State) : Host.Outcome State Fault Refusal := branch .nonzero rb rc s

/-- `brpl rb, rc` (R112: condition 4, which includes zero; C1). -/
def execBrpl (rb rc : Reg) (s : State) : Host.Outcome State Fault Refusal := branch .plus rb rc s

/-- `brmi rb, rc` (R112: condition 5). -/
def execBrmi (rb rc : Reg) (s : State) : Host.Outcome State Fault Refusal := branch .minus rb rc s

/-- `brl ra, rb` (R112: condition 1). -/
def execBrlAlways (ra rb rc : Reg) (s : State) : Host.Outcome State Fault Refusal := branchLink .always ra rb rc s

/-- `brlnv ra` (R112: condition 0). -/
def execBrlnv (ra rb rc : Reg) (s : State) : Host.Outcome State Fault Refusal := branchLink .never ra rb rc s

/-- `brlzr ra, rb, rc` (R112: condition 2). -/
def execBrlzr (ra rb rc : Reg) (s : State) : Host.Outcome State Fault Refusal := branchLink .zero ra rb rc s

/-- `brlnz ra, rb, rc` (R112: condition 3). -/
def execBrlnz (ra rb rc : Reg) (s : State) : Host.Outcome State Fault Refusal := branchLink .nonzero ra rb rc s

/-- `brlpl ra, rb, rc` (R112: condition 4, which includes zero; C1). -/
def execBrlpl (ra rb rc : Reg) (s : State) : Host.Outcome State Fault Refusal := branchLink .plus ra rb rc s

/-- `brlmi ra, rb, rc` (R112: condition 5). -/
def execBrlmi (ra rb rc : Reg) (s : State) : Host.Outcome State Fault Refusal := branchLink .minus ra rb rc s

end Sys2Proof.Machine
end

