-- ==== Sys2Proof/Machine/Interrupt.lean ====
section
/-! DEFINITION. Interrupt instructions (44_interrupt.md R150 to R154); none is privileged (R185). -/

namespace Sys2Proof.Machine

/-- `een → (IE ← 1)` (R150). -/
def execEen (s : State) : Host.Outcome State Fault Refusal := .next (s.setIe true)

/-- `edi → (IE ← 0)` (R151). -/
def execEdi (s : State) : Host.Outcome State Fault Refusal := .next (s.setIe false)

/-- `rfi → (PC ← IPC: IE ← 1)` (R152). -/
def execRfi (s : State) : Host.Outcome State Fault Refusal := .next s.returnFromInterrupt

/-- `svi → (R[ra]〈15..0〉 ← II〈15..0〉: R[rb] ← IPC〈31..0〉)` (R153); `ra = rb` is refused (D6, log entry 6). -/
def execSvi (ra rb : Reg) (s : State) : Host.Outcome State Fault Refusal :=
  if ra = rb then .refused .sviSameRegister
  else .next ((s.writeRegLow ra (lowHalf s.ii)).writeReg rb s.ipc)

/-- `ri → (II〈15..0〉 ← R[ra]〈15..0〉: IPC〈31..0〉 ← R[rb])` (R154); `ra = rb` is an ordinary case. -/
def execRi (ra rb : Reg) (s : State) : Host.Outcome State Fault Refusal :=
  .next ((s.setIiLow (lowHalf (s.readReg ra))).setIpc (s.readReg rb))

end Sys2Proof.Machine
end

