-- ==== Sys2Proof/Machine/LoadStore.lean ====
section
/-! DEFINITION. Load and store instructions (40_load_store.md R100 to R105). None can fault (R180). -/

namespace Sys2Proof.Machine

/-- `ld → R[ra] ← M[disp]` (R100). -/
def execLd (ra rb : Reg) (c2 : BitVec 17) (s : State) : Host.Outcome State Fault Refusal :=
  .next (s.writeReg ra (s.readWord (disp s rb c2)))

/-- `ldr → R[ra] ← M[rel]` (R101). -/
def execLdr (ra : Reg) (c1 : BitVec 22) (s : State) : Host.Outcome State Fault Refusal :=
  .next (s.writeReg ra (s.readWord (rel s c1)))

/-- `st → M[disp] ← R[ra]` (R102). -/
def execSt (ra rb : Reg) (c2 : BitVec 17) (s : State) : Host.Outcome State Fault Refusal :=
  .next (s.writeWord (disp s rb c2) (s.readReg ra))

/-- `str → M[rel] ← R[ra]` (R103). -/
def execStr (ra : Reg) (c1 : BitVec 22) (s : State) : Host.Outcome State Fault Refusal :=
  .next (s.writeWord (rel s c1) (s.readReg ra))

/-- `la → R[ra] ← disp` (R104). -/
def execLa (ra rb : Reg) (c2 : BitVec 17) (s : State) : Host.Outcome State Fault Refusal :=
  .next (s.writeReg ra (disp s rb c2))

/-- `lar → R[ra] ← rel` (R105). -/
def execLar (ra : Reg) (c1 : BitVec 22) (s : State) : Host.Outcome State Fault Refusal :=
  .next (s.writeReg ra (rel s c1))

end Sys2Proof.Machine
end

