-- ==== Sys2Proof/Machine/Misc.lean ====
section
/-! DEFINITION. Miscellaneous instructions (45_misc.md R160, R161) and the four reserved operation codes (30_encoding.md
R81). -/

namespace Sys2Proof.Machine

/-- `nop` (R160): only the fetch's effects. -/
def execNop (s : State) : Host.Outcome State Fault Refusal := .next s

/-- `stop → Run ← 0` (R161). -/
def execStop (s : State) : Host.Outcome State Fault Refusal := .next (s.setRun false)

/-- A reserved operation code under the parameter `ReservedOpcode` (R81, D3, log entry 3): refused, or only the fetch's
effects. -/
def reservedOpcode (s : State) : Host.Outcome State Fault Refusal :=
  match s.params.reservedOpcode with
  | .refuse => .refused .reservedOpcode
  | .nop => .next s

/-- `op` = 7 (R81). -/
def execReservedOp7 (s : State) : Host.Outcome State Fault Refusal := reservedOpcode s

/-- `op` = 18 (R81). -/
def execReservedOp18 (s : State) : Host.Outcome State Fault Refusal := reservedOpcode s

/-- `op` = 19 (R81). -/
def execReservedOp19 (s : State) : Host.Outcome State Fault Refusal := reservedOpcode s

/-- `op` = 25 (R81). -/
def execReservedOp25 (s : State) : Host.Outcome State Fault Refusal := reservedOpcode s

end Sys2Proof.Machine
end

