-- ==== Sys2Proof/Machine/Shift.lean ====
section
/-! DEFINITION. Shift instructions (43_shift.md R140 to R145); the count is `shiftCount` (R78). -/

namespace Sys2Proof.Machine

/-- `shr → R[ra]〈31..0〉 ← (n @ 0) # R[rb]〈31..n〉` (R140). -/
def execShr (ra rb rc : Reg) (c3 : BitVec 5) (s : State) : Host.Outcome State Fault Refusal :=
  .next (s.writeReg ra (shiftRight (s.readReg rb) (shiftCount s rc c3)))

/-- `shra → R[ra]〈31..0〉 ← (n @ R[rb]〈31〉) # R[rb]〈31..n〉` (R141). -/
def execShra (ra rb rc : Reg) (c3 : BitVec 5) (s : State) : Host.Outcome State Fault Refusal :=
  .next (s.writeReg ra (shiftRightArith (s.readReg rb) (shiftCount s rc c3)))

/-- `shl → R[ra]〈31..0〉 ← R[rb]〈31-n..0〉 # (n @ 0)` (R142). -/
def execShl (ra rb rc : Reg) (c3 : BitVec 5) (s : State) : Host.Outcome State Fault Refusal :=
  .next (s.writeReg ra (shiftLeft (s.readReg rb) (shiftCount s rc c3)))

/-- `shc → R[ra]〈31..0〉 ← R[rb]〈31-n..0〉 # R[rb]〈31..32-n〉` (R143). -/
def execShc (ra rb rc : Reg) (c3 : BitVec 5) (s : State) : Host.Outcome State Fault Refusal :=
  .next (s.writeReg ra (rotateLeft (s.readReg rb) (shiftCount s rc c3)))

end Sys2Proof.Machine
end

