-- ==== Sys2Proof/Machine/Dispatch.lean ====
section
/-! DEFINITION. One arm per constructor of `Instr`: the meaning of each instruction, in the state after its fetch
(00_scope.md R12). -/

namespace Sys2Proof.Machine

def exec (i : Instr) (s : State) : Host.Outcome State Fault Refusal :=
  match i with
  | .nop => Sys2Proof.Machine.execNop s
  | .ld ra rb c2 => Sys2Proof.Machine.execLd ra rb c2 s
  | .ldr ra c1 => Sys2Proof.Machine.execLdr ra c1 s
  | .st ra rb c2 => Sys2Proof.Machine.execSt ra rb c2 s
  | .str ra c1 => Sys2Proof.Machine.execStr ra c1 s
  | .la ra rb c2 => Sys2Proof.Machine.execLa ra rb c2 s
  | .lar ra c1 => Sys2Proof.Machine.execLar ra c1 s
  | .br rb rc cond => Sys2Proof.Machine.execBr rb rc cond s
  | .brl ra rb rc cond => Sys2Proof.Machine.execBrl ra rb rc cond s
  | .een => Sys2Proof.Machine.execEen s
  | .edi => Sys2Proof.Machine.execEdi s
  | .add ra rb rc => Sys2Proof.Machine.execAdd ra rb rc s
  | .addi ra rb c2 => Sys2Proof.Machine.execAddi ra rb c2 s
  | .sub ra rb rc => Sys2Proof.Machine.execSub ra rb rc s
  | .neg ra rc => Sys2Proof.Machine.execNeg ra rc s
  | .svi ra rb => Sys2Proof.Machine.execSvi ra rb s
  | .ri ra rb => Sys2Proof.Machine.execRi ra rb s
  | .and ra rb rc => Sys2Proof.Machine.execAnd ra rb rc s
  | .andi ra rb c2 => Sys2Proof.Machine.execAndi ra rb c2 s
  | .or ra rb rc => Sys2Proof.Machine.execOr ra rb rc s
  | .ori ra rb c2 => Sys2Proof.Machine.execOri ra rb c2 s
  | .not ra rc => Sys2Proof.Machine.execNot ra rc s
  | .shr ra rb rc c3 => Sys2Proof.Machine.execShr ra rb rc c3 s
  | .shra ra rb rc c3 => Sys2Proof.Machine.execShra ra rb rc c3 s
  | .shl ra rb rc c3 => Sys2Proof.Machine.execShl ra rb rc c3 s
  | .shc ra rb rc c3 => Sys2Proof.Machine.execShc ra rb rc c3 s
  | .rfi => Sys2Proof.Machine.execRfi s
  | .stop => Sys2Proof.Machine.execStop s
  | .reservedOp7 => Sys2Proof.Machine.execReservedOp7 s
  | .reservedOp18 => Sys2Proof.Machine.execReservedOp18 s
  | .reservedOp19 => Sys2Proof.Machine.execReservedOp19 s
  | .reservedOp25 => Sys2Proof.Machine.execReservedOp25 s
  | .brAlways rb rc => Sys2Proof.Machine.execBrAlways rb rc s
  | .brzr rb rc => Sys2Proof.Machine.execBrzr rb rc s
  | .brnz rb rc => Sys2Proof.Machine.execBrnz rb rc s
  | .brpl rb rc => Sys2Proof.Machine.execBrpl rb rc s
  | .brmi rb rc => Sys2Proof.Machine.execBrmi rb rc s
  | .brlAlways ra rb rc => Sys2Proof.Machine.execBrlAlways ra rb rc s
  | .brlnv ra rb rc => Sys2Proof.Machine.execBrlnv ra rb rc s
  | .brlzr ra rb rc => Sys2Proof.Machine.execBrlzr ra rb rc s
  | .brlnz ra rb rc => Sys2Proof.Machine.execBrlnz ra rb rc s
  | .brlpl ra rb rc => Sys2Proof.Machine.execBrlpl ra rb rc s
  | .brlmi ra rb rc => Sys2Proof.Machine.execBrlmi ra rb rc s

end Sys2Proof.Machine
end

