-- ==== Sys2Proof/Machine/Step.lean ====
section
/-! DEFINITION. One step of the machine: one invocation of `instruction_interpretation` (00_scope.md R13, 60_exceptions.md
R176), and the host's way to place one instruction where the next step fetches. -/

namespace Sys2Proof.Machine

/-- Sample the environment, then perform the one arm whose guard holds (R176). The fetch arm executes the fetched word
in the state after the fetch (R26). With no arm the machine has no step (R206). -/
def step (s : State) : Host.Outcome State Fault Refusal :=
  let s := s.sampleInputs
  match s.arm with
  | .hardReset => .next s.hardReset
  | .softReset => .next s.softReset
  | .interruptEntry => .next s.enterInterrupt
  | .normalFetch => exec (decodeWord s.fetchWord) s.afterFetch
  | .halted => .fault .halted

/-- An input that raises neither `Rst` nor `ireq`. -/
def EnvInput.quiet (e : EnvInput) : EnvInput := { e with raiseRst := false, ireq := false }

/-- `s` with an instruction's word stored at `PC` (R65) and the fetch arm's guard made true: running, no soft reset and
no interrupt requested, by the levels held or by the next input (log entry 17). -/
def State.withFetchWord (s : State) (nbits w : Nat) : State :=
  let s := s.writeWord s.pc (BitVec.ofNat 32 (w % 2 ^ nbits))
  { s with
    run := true, rst := false, ireq := false,
    env := match s.env with
      | [] => []
      | e :: rest => e.quiet :: rest }

end Sys2Proof.Machine
end

