-- ==== Sys2Proof/Machine/Assembler.lean ====
section
/-! DEFINITION. What Tables A.1 and A.2 fix of the assembler (30_encoding.md R90 to R97): the assembly forms and their
words, the pseudo operations as the loader's actions on memory before a run, and the number rule. The text of a line
(labels, comments, register spelling) is out of the spec's scope (00_scope.md R3). -/

namespace Sys2Proof.Machine

/-- The forms of Table A.2 (R91 to R94, R97), operands in the order they are written. `…Abs` is the form without a base
register, `…Const` the constant count, `…Reg` the count in a register. -/
inductive AsmForm where
  | ldAbs (ra : Reg) (c2 : BitVec 17)
  | ldDisp (ra : Reg) (c2 : BitVec 17) (rb : Reg)
  | ldr (ra : Reg) (c1 : BitVec 22)
  | stAbs (ra : Reg) (c2 : BitVec 17)
  | stDisp (ra : Reg) (c2 : BitVec 17) (rb : Reg)
  | str (ra : Reg) (c1 : BitVec 22)
  | laAbs (ra : Reg) (c2 : BitVec 17)
  | laDisp (ra : Reg) (c2 : BitVec 17) (rb : Reg)
  | lar (ra : Reg) (c1 : BitVec 22)
  | add (ra rb rc : Reg)
  | addi (ra rb : Reg) (c2 : BitVec 17)
  | sub (ra rb rc : Reg)
  | neg (ra rc : Reg)
  | or (ra rb rc : Reg)
  | ori (ra rb : Reg) (c2 : BitVec 17)
  | and (ra rb rc : Reg)
  | andi (ra rb : Reg) (c2 : BitVec 17)
  | not (ra rc : Reg)
  | shrConst (ra rb : Reg) (c3 : BitVec 5)
  | shrReg (ra rb rc : Reg)
  | shraConst (ra rb : Reg) (c3 : BitVec 5)
  | shraReg (ra rb rc : Reg)
  | shlConst (ra rb : Reg) (c3 : BitVec 5)
  | shlReg (ra rb rc : Reg)
  | shcConst (ra rb : Reg) (c3 : BitVec 5)
  | shcReg (ra rb rc : Reg)
  | br (rb rc : Reg) (c3 : BitVec 3)
  | brl (ra rb rc : Reg) (c3 : BitVec 3)
  | brAlways (rb : Reg)
  | brlAlways (ra rb : Reg)
  | brlnv (ra : Reg)
  | brzr (rb rc : Reg)
  | brlzr (ra rb rc : Reg)
  | brnz (rb rc : Reg)
  | brlnz (ra rb rc : Reg)
  | brpl (rb rc : Reg)
  | brlpl (ra rb rc : Reg)
  | brmi (rb rc : Reg)
  | brlmi (ra rb rc : Reg)
  | nop
  | stop
  | een
  | edi
  | rfi
  | svi (ra rb : Reg)
  | ri (ra rb : Reg)
  deriving DecidableEq, Repr

/-- The instruction a form assembles to: operands go to the fields of their names, every other field is 0 (R84, R90). A
constant count of 0 fills the fields as the register form with `rc` = 0 does (R93). -/
def AsmForm.instr : AsmForm → Instr
  | .ldAbs ra c2 => .ld ra 0 c2
  | .ldDisp ra c2 rb => .ld ra rb c2
  | .ldr ra c1 => .ldr ra c1
  | .stAbs ra c2 => .st ra 0 c2
  | .stDisp ra c2 rb => .st ra rb c2
  | .str ra c1 => .str ra c1
  | .laAbs ra c2 => .la ra 0 c2
  | .laDisp ra c2 rb => .la ra rb c2
  | .lar ra c1 => .lar ra c1
  | .add ra rb rc => .add ra rb rc
  | .addi ra rb c2 => .addi ra rb c2
  | .sub ra rb rc => .sub ra rb rc
  | .neg ra rc => .neg ra rc
  | .or ra rb rc => .or ra rb rc
  | .ori ra rb c2 => .ori ra rb c2
  | .and ra rb rc => .and ra rb rc
  | .andi ra rb c2 => .andi ra rb c2
  | .not ra rc => .not ra rc
  | .shrConst ra rb c3 => .shr ra rb 0 c3
  | .shrReg ra rb rc => .shr ra rb rc 0
  | .shraConst ra rb c3 => .shra ra rb 0 c3
  | .shraReg ra rb rc => .shra ra rb rc 0
  | .shlConst ra rb c3 => .shl ra rb 0 c3
  | .shlReg ra rb rc => .shl ra rb rc 0
  | .shcConst ra rb c3 => .shc ra rb 0 c3
  | .shcReg ra rb rc => .shc ra rb rc 0
  | .br rb rc c3 => brOfCond rb rc (Cond.ofBits c3)
  | .brl ra rb rc c3 => brlOfCond ra rb rc (Cond.ofBits c3)
  | .brAlways rb => .brAlways rb 0
  | .brlAlways ra rb => .brlAlways ra rb 0
  | .brlnv ra => .brlnv ra 0 0
  | .brzr rb rc => .brzr rb rc
  | .brlzr ra rb rc => .brlzr ra rb rc
  | .brnz rb rc => .brnz rb rc
  | .brlnz ra rb rc => .brlnz ra rb rc
  | .brpl rb rc => .brpl rb rc
  | .brlpl ra rb rc => .brlpl ra rb rc
  | .brmi rb rc => .brmi rb rc
  | .brlmi ra rb rc => .brlmi ra rb rc
  | .nop => .nop
  | .stop => .stop
  | .een => .een
  | .edi => .edi
  | .rfi => .rfi
  | .svi ra rb => .svi ra rb
  | .ri ra rb => .ri ra rb

/-- The word a form assembles to. -/
def AsmForm.word (f : AsmForm) : Word := encode f.instr

/-- The pseudo operations of Table A.1 (R95), their Values already numbers. -/
inductive Directive where
  | org (value : Word)
  | equ (label : String) (value : Word)
  | dc (values : List Word)
  | dcb (values : List Byte)
  | dch (values : List (BitVec 16))
  | db (count : Nat)
  | dh (count : Nat)
  | dw (count : Nat)
  deriving DecidableEq, Repr

/-- One line of a program: an instruction or a pseudo operation. -/
inductive AsmLine where
  | code (f : AsmForm)
  | directive (d : Directive)
  deriving DecidableEq, Repr

/-- The loader's own data while it places a program: the location counter and the constants `.equ` has defined. -/
structure Loader where
  loc : Word
  symbols : List (String × Word)
  state : State
  deriving DecidableEq, Repr

/-- Place bytes from the location counter on and move it past them. DESIGN CHOICE (log entry 2): the counter is modulo
2^32, so bytes past 0xFFFFFFFF go on at address 0; the spec does not say it of the loader. -/
def Loader.emit (l : Loader) : List Byte → Loader
  | [] => l
  | b :: bs => Loader.emit { l with loc := l.loc + 1, state := l.state.writeByte l.loc b } bs

/-- Move the location counter over storage whose contents stay as they are: the spec states none (R95, U13). DESIGN
CHOICE (log entry 21): the storage starts at whatever byte the counter holds, not aligned to its halfwords or words. -/
def Loader.reserve (l : Loader) (bytes : Nat) : Loader := { l with loc := l.loc + BitVec.ofNat 32 bytes }

/-- The bytes of a halfword, most significant first (D14, log entry 20). -/
def bytesOfHalf (h : BitVec 16) : List Byte := [h.extractLsb' 8 8, h.extractLsb' 0 8]

/-- One line (R95): words most significant byte first, storage reserved without contents, `.equ` a constant's name.
DESIGN CHOICE, where the source is silent (N15): no directive aligns the location counter (log entry 21); `.org` may
appear any number of times and each moves the counter anew, backwards too (log entry 22). -/
def Loader.line (l : Loader) : AsmLine → Loader
  | .code f => l.emit (bytesOfWord f.word)
  | .directive (.org v) => { l with loc := v }
  | .directive (.equ label v) => { l with symbols := (label, v) :: l.symbols }
  | .directive (.dc vs) => l.emit (vs.flatMap bytesOfWord)
  | .directive (.dcb vs) => l.emit vs
  | .directive (.dch vs) => l.emit (vs.flatMap bytesOfHalf)
  | .directive (.db n) => l.reserve n
  | .directive (.dh n) => l.reserve (2 * n)
  | .directive (.dw n) => l.reserve (4 * n)

/-- Place a program in memory before a run (R205, D15); the location counter starts at 0, where both resets start
(DESIGN CHOICE, log entry 20: the source names no start without `.org`). Only memory changes. -/
def State.load (s : State) (program : List AsmLine) : State :=
  (program.foldl Loader.line { loc := 0, symbols := [], state := s }).state

/-- The value of a digit. -/
def digitValue (c : Char) : Nat :=
  if c.isDigit then c.toNat - '0'.toNat else c.toNat - 'A'.toNat + 10

/-- Digits in a base, most significant first; none for an empty list or a digit outside the base. -/
def parseDigits (base : Nat) (ds : List Char) : Option Nat :=
  if ds.isEmpty then none
  else if ds.all fun c => (c.isDigit || c.isUpper) && decide (digitValue c < base) then
    some (ds.foldl (fun n c => base * n + digitValue c) 0)
  else none

/-- "Values are assumed to be decimal unless terminated by B (binary) or H (hexadecimal)." (R96) -/
def parseNumber (text : List Char) : Option Nat :=
  match text.getLast? with
  | some 'H' => parseDigits 16 text.dropLast
  | some 'B' => parseDigits 2 text.dropLast
  | _ => parseDigits 10 text

end Sys2Proof.Machine
end

