-- ==== Sys2Proof/Safety.lean ====
section
/-! DEFINITION. The terms claims are stated in: what counts as a safe step and run, the invariant, which registers an
instruction reads and writes (10_state.md R22), where it stores, and the frames of a change of state. -/

namespace Sys2Proof

/-- The registers an instruction's effect depends on (R22). A branch's target is listed whether or not it is taken. -/
def Instr.reads : Instr → List Reg
  | .ld _ rb _ | .la _ rb _ => if rb = 0 then [] else [rb]
  | .st ra rb _ => if rb = 0 then [ra] else [ra, rb]
  | .str ra _ => [ra]
  | .br rb rc c | .brl _ rb rc c =>
    match c with
    | .zero | .nonzero | .plus | .minus => [rb, rc]
    | .always => [rb]
    | .never | .reserved6 | .reserved7 => []
  | .brAlways rb _ | .brlAlways _ rb _ => [rb]
  | .brzr rb rc | .brnz rb rc | .brpl rb rc | .brmi rb rc => [rb, rc]
  | .brlzr _ rb rc | .brlnz _ rb rc | .brlpl _ rb rc | .brlmi _ rb rc => [rb, rc]
  | .add _ rb rc | .sub _ rb rc | .and _ rb rc | .or _ rb rc => [rb, rc]
  | .addi _ rb _ | .andi _ rb _ | .ori _ rb _ => [rb]
  | .neg _ rc | .not _ rc => [rc]
  | .shr _ rb rc c3 | .shra _ rb rc c3 | .shl _ rb rc c3 | .shc _ rb rc c3 => if c3 = 0 then [rb, rc] else [rb]
  | .ri ra rb => [ra, rb]
  | .nop | .ldr _ _ | .lar _ _ | .een | .edi | .svi _ _ | .rfi | .stop | .reservedOp7 | .reservedOp18 | .reservedOp19
  | .reservedOp25 | .brlnv _ _ _ => []

/-- The registers an instruction writes (R22); `svi` writes only the low half of `ra`. -/
def Instr.writes : Instr → List Reg
  | .ld ra _ _ | .la ra _ _ | .addi ra _ _ | .andi ra _ _ | .ori ra _ _ => [ra]
  | .ldr ra _ | .lar ra _ => [ra]
  | .add ra _ _ | .sub ra _ _ | .and ra _ _ | .or ra _ _ => [ra]
  | .neg ra _ | .not ra _ => [ra]
  | .shr ra _ _ _ | .shra ra _ _ _ | .shl ra _ _ _ | .shc ra _ _ _ => [ra]
  | .brl ra _ _ _ => [ra]
  | .brlAlways ra _ _ | .brlnv ra _ _ | .brlzr ra _ _ | .brlnz ra _ _ | .brlpl ra _ _ | .brlmi ra _ _ => [ra]
  | .svi ra rb => [ra, rb]
  | .nop | .st _ _ _ | .str _ _ | .br _ _ _ | .een | .edi | .ri _ _ | .rfi | .stop | .reservedOp7 | .reservedOp18
  | .reservedOp19 | .reservedOp25 | .brAlways _ _ | .brzr _ _ | .brnz _ _ | .brpl _ _ | .brmi _ _ => []

/-- The instructions that can leave another `PC` than the fetch did: `br`, `brl` and their named forms, `rfi` (R27,
R113). -/
def Instr.writesPc : Instr → Bool
  | .br _ _ _ | .brl _ _ _ _ | .brAlways _ _ | .brzr _ _ | .brnz _ _ | .brpl _ _ | .brmi _ _ | .brlAlways _ _ _
  | .brlnv _ _ _ | .brlzr _ _ _ | .brlnz _ _ _ | .brlpl _ _ _ | .brlmi _ _ _ | .rfi => true
  | _ => false

namespace Machine

/-- The address an instruction stores a word at, in the state after its fetch; none for one that stores nothing (R51). -/
def storeAddress (s : State) : Instr → Option Word
  | .st _ rb c2 => some (disp s rb c2)
  | .str _ c1 => some (rel s c1)
  | _ => none

/-- The four byte addresses of the word at `a`, modulo 2^32 (R54). -/
def wordAddresses (a : Word) : List Word := [a, a + 1, a + 2, a + 3]

/-- Every register but those of `rs` is as before. -/
def KeepsRegsBut (rs : List Reg) (s t : State) : Prop := ∀ r, r ∉ rs → t.readReg r = s.readReg r

/-- Every byte of memory is as before. -/
def KeepsMemory (s t : State) : Prop := ∀ a, t.readByte a = s.readByte a

/-- `IE`, `IPC` and `II` are as before. -/
def KeepsInterruptState (s t : State) : Prop := t.ie = s.ie ∧ t.ipc = s.ipc ∧ t.ii = s.ii

/-- `Run` and `IR` are as before. -/
def KeepsRunAndIr (s t : State) : Prop := t.run = s.run ∧ t.ir = s.ir

/-- The signals, the pending inputs, the acknowledge events and the parameters are as before (no instruction writes
any of them: R38 to R43). -/
def KeepsSignals (s t : State) : Prop :=
  t.strt = s.strt ∧ t.rst = s.rst ∧ t.ireq = s.ireq ∧ t.iack = s.iack ∧ t.isrcInfo = s.isrcInfo ∧
    t.isrcVect = s.isrcVect ∧ t.env = s.env ∧ t.acks = s.acks ∧ t.params = s.params

/-- The frame of an instruction that writes registers of `rs` only. -/
def OnlyRegs (rs : List Reg) (s t : State) : Prop :=
  KeepsRegsBut rs s t ∧ t.pc = s.pc ∧ KeepsMemory s t ∧ KeepsInterruptState s t ∧ KeepsRunAndIr s t ∧ KeepsSignals s t

/-- The frame of a branch: registers of `rs` and `PC` may change. -/
def OnlyRegsAndPc (rs : List Reg) (s t : State) : Prop :=
  KeepsRegsBut rs s t ∧ KeepsMemory s t ∧ KeepsInterruptState s t ∧ KeepsRunAndIr s t ∧ KeepsSignals s t

/-- The frame of a store: memory may change, at the four bytes of the word at `a` only. -/
def OnlyWordAt (a : Word) (s t : State) : Prop :=
  (∀ b, b ∉ wordAddresses a → t.readByte b = s.readByte b) ∧
    KeepsRegsBut [] s t ∧ t.pc = s.pc ∧ KeepsInterruptState s t ∧ KeepsRunAndIr s t ∧ KeepsSignals s t

/-- What holds between steps in every run: memory is in canonical form, and `iack` is 0 (R41, R175). -/
def State.Inv (s : State) : Prop := s.mem.wf = true ∧ s.iack = false

/-- A step the machine takes: it answers a next state. -/
def CanStep (s : State) : Prop := ∃ t, step s = .next t

/-- A run of `n` steps that all answer a next state. -/
def SafeRun : Nat → State → Prop
  | 0, _ => True
  | n + 1, s => ∃ t, step s = .next t ∧ SafeRun n t

/-- The encoding's meaning is not refused in this state: it is no reserved encoding (R83), or a parameter gives it its
effect (R77, R81). -/
def Executable (i : Instr) (p : Params) : Prop :=
  match i with
  | .reservedOp7 | .reservedOp18 | .reservedOp19 | .reservedOp25 => p.reservedOpcode = .nop
  | .br _ _ c | .brl _ _ _ c => c.isReserved = true → p.reservedCond = .never
  | .svi ra rb => ra ≠ rb
  | _ => True

end Machine

end Sys2Proof
end

