-- ==== Sys2Proof/Certificates/Slice0/Obligations.lean ====
section
/-! DEFINITION. The statements for the provers: what the rules of spec/ say the machine does. -/

namespace Sys2Proof.Machine

open Sys2Proof

/-! ## Shapes the statements share -/

/-- The instruction's word as a number (R84). -/
def WordIs (i : Instr) (n : Nat) : Prop := (encode i).toNat = n

/-- `i` completes, leaves `v` in `R[ra]`, and changes no other state. -/
def RegResult (i : Instr) (ra : Reg) (v : Word) (s : State) : Prop :=
  ∃ t, exec i s = .next t ∧ t.readReg ra = v ∧ OnlyRegs [ra] s t

/-- `i` completes, leaves in `R[ra]` the word whose bit `k` is `bit k`, and changes no other state. -/
def RegBitsResult (i : Instr) (ra : Reg) (bit : Nat → Bool) (s : State) : Prop :=
  ∃ t, exec i s = .next t ∧ (∀ k, k < 32 → (t.readReg ra).getLsbD k = bit k) ∧ OnlyRegs [ra] s t

/-- The four bytes of `v` lie at `a`, the most significant at `a`, addresses modulo 2^32 (R53, R54). -/
def WordAt (t : State) (a v : Word) : Prop :=
  t.readByte a = v.extractLsb' 24 8 ∧ t.readByte (a + 1) = v.extractLsb' 16 8 ∧
    t.readByte (a + 2) = v.extractLsb' 8 8 ∧ t.readByte (a + 3) = v.extractLsb' 0 8

/-- `i` completes, stores `v` at `a`, and changes no other state and no byte outside the word at `a`. -/
def StoreResult (i : Instr) (a v : Word) (s : State) : Prop :=
  ∃ t, exec i s = .next t ∧ WordAt t a v ∧ OnlyWordAt a s t

/-- The test of a condition on a two's complement number (R76); the reserved codes are never taken. -/
def Taken (c : Cond) (v : Word) : Prop :=
  match c with
  | .never => False
  | .always => True
  | .zero => v = 0
  | .nonzero => v ≠ 0
  | .plus => 0 ≤ v.toInt
  | .minus => v.toInt < 0
  | .reserved6 => False
  | .reserved7 => False

/-- `i` completes as `br` under condition `c` does: `PC` is `R[rb]` when taken, else unchanged; nothing else changes. -/
def BranchResult (i : Instr) (c : Cond) (rb rc : Reg) (s : State) : Prop :=
  ∃ t, exec i s = .next t ∧ (Taken c (s.readReg rc) → t.pc = s.readReg rb) ∧ (¬Taken c (s.readReg rc) → t.pc = s.pc) ∧
    OnlyRegsAndPc [] s t

/-- `i` completes as `brl` under condition `c` does: `R[ra]` is the old `PC` taken or not; target and tested register
are read before the link is written; nothing else changes. -/
def LinkResult (i : Instr) (c : Cond) (ra rb rc : Reg) (s : State) : Prop :=
  ∃ t, exec i s = .next t ∧ t.readReg ra = s.pc ∧ (Taken c (s.readReg rc) → t.pc = s.readReg rb) ∧
    (¬Taken c (s.readReg rc) → t.pc = s.pc) ∧ OnlyRegsAndPc [ra] s t

/-- The shift count `n` (R78). -/
def countOf (s : State) (rc : Reg) (c3 : BitVec 5) : Nat := if c3 = 0 then (s.readReg rc).toNat % 32 else c3.toNat

/-- Apply a change of state to a next state; a stop stays as it is. -/
def mapNext (f : State → State) : Host.Outcome State Fault Refusal → Host.Outcome State Fault Refusal
  | .next t => .next (f t)
  | .fault r => .fault r
  | .refused r => .refused r

/-- The bits the opcode table's row for an instruction does not mark `x`. -/
def rowBits : Instr → Word
  | .nop | .een | .edi | .rfi | .stop | .reservedOp7 | .reservedOp18 | .reservedOp19 | .reservedOp25 => 0xF8000000
  | .ld _ _ _ | .st _ _ _ | .la _ _ _ | .addi _ _ _ | .andi _ _ _ | .ori _ _ _ => 0xFFFFFFFF
  | .ldr _ _ | .str _ _ | .lar _ _ => 0xFFFFFFFF
  | .br _ _ _ | .brAlways _ _ | .brzr _ _ | .brnz _ _ | .brpl _ _ | .brmi _ _ => 0xF83FF007
  | .brl _ _ _ _ | .brlAlways _ _ _ | .brlnv _ _ _ | .brlzr _ _ _ | .brlnz _ _ _ | .brlpl _ _ _ | .brlmi _ _ _ => 0xFFFFF007
  | .add _ _ _ | .sub _ _ _ | .and _ _ _ | .or _ _ _ => 0xFFFFF000
  | .neg _ _ | .not _ _ => 0xFFC1F000
  | .svi _ _ | .ri _ _ => 0xFFFE0000
  | .shr _ _ _ _ | .shra _ _ _ _ | .shl _ _ _ _ | .shc _ _ _ _ => 0xFFFFF01F

/-- `op << 27 | ra << 22 | rb << 17 | rc << 12 | c3` as a sum (R84). -/
def regsNumber (op : Nat) (ra rb rc : Reg) (c3 : Nat) : Nat :=
  op * 2 ^ 27 + ra.val * 2 ^ 22 + rb.val * 2 ^ 17 + rc.val * 2 ^ 12 + c3

/-- `op << 27 | ra << 22 | rb << 17 | (c2 & 0x1FFFF)` as a sum (R84). -/
def c2Number (op : Nat) (ra rb : Reg) (c2 : BitVec 17) : Nat :=
  op * 2 ^ 27 + ra.val * 2 ^ 22 + rb.val * 2 ^ 17 + c2.toNat

/-- `op << 27 | ra << 22 | (c1 & 0x3FFFFF)` as a sum (R84). -/
def c1Number (op : Nat) (ra : Reg) (c1 : BitVec 22) : Nat := op * 2 ^ 27 + ra.val * 2 ^ 22 + c1.toNat

/-- The word of each assembly form from its operands, as the tables of R91 to R94 and R97 give its `op` and fields; a
field that a form does not name is 0. -/
def formNumber : AsmForm → Nat
  | .ldAbs ra c2 => c2Number 1 ra 0 c2
  | .ldDisp ra c2 rb => c2Number 1 ra rb c2
  | .ldr ra c1 => c1Number 2 ra c1
  | .stAbs ra c2 => c2Number 3 ra 0 c2
  | .stDisp ra c2 rb => c2Number 3 ra rb c2
  | .str ra c1 => c1Number 4 ra c1
  | .laAbs ra c2 => c2Number 5 ra 0 c2
  | .laDisp ra c2 rb => c2Number 5 ra rb c2
  | .lar ra c1 => c1Number 6 ra c1
  | .add ra rb rc => regsNumber 12 ra rb rc 0
  | .addi ra rb c2 => c2Number 13 ra rb c2
  | .sub ra rb rc => regsNumber 14 ra rb rc 0
  | .neg ra rc => regsNumber 15 ra 0 rc 0
  | .or ra rb rc => regsNumber 22 ra rb rc 0
  | .ori ra rb c2 => c2Number 23 ra rb c2
  | .and ra rb rc => regsNumber 20 ra rb rc 0
  | .andi ra rb c2 => c2Number 21 ra rb c2
  | .not ra rc => regsNumber 24 ra 0 rc 0
  | .shrConst ra rb c3 => regsNumber 26 ra rb 0 c3.toNat
  | .shrReg ra rb rc => regsNumber 26 ra rb rc 0
  | .shraConst ra rb c3 => regsNumber 27 ra rb 0 c3.toNat
  | .shraReg ra rb rc => regsNumber 27 ra rb rc 0
  | .shlConst ra rb c3 => regsNumber 28 ra rb 0 c3.toNat
  | .shlReg ra rb rc => regsNumber 28 ra rb rc 0
  | .shcConst ra rb c3 => regsNumber 29 ra rb 0 c3.toNat
  | .shcReg ra rb rc => regsNumber 29 ra rb rc 0
  | .br rb rc c3 => regsNumber 8 0 rb rc c3.toNat
  | .brl ra rb rc c3 => regsNumber 9 ra rb rc c3.toNat
  | .brAlways rb => regsNumber 8 0 rb 0 1
  | .brlAlways ra rb => regsNumber 9 ra rb 0 1
  | .brlnv ra => regsNumber 9 ra 0 0 0
  | .brzr rb rc => regsNumber 8 0 rb rc 2
  | .brlzr ra rb rc => regsNumber 9 ra rb rc 2
  | .brnz rb rc => regsNumber 8 0 rb rc 3
  | .brlnz ra rb rc => regsNumber 9 ra rb rc 3
  | .brpl rb rc => regsNumber 8 0 rb rc 4
  | .brlpl ra rb rc => regsNumber 9 ra rb rc 4
  | .brmi rb rc => regsNumber 8 0 rb rc 5
  | .brlmi ra rb rc => regsNumber 9 ra rb rc 5
  | .nop => regsNumber 0 0 0 0 0
  | .stop => regsNumber 31 0 0 0 0
  | .een => regsNumber 10 0 0 0 0
  | .edi => regsNumber 11 0 0 0 0
  | .rfi => regsNumber 30 0 0 0 0
  | .svi ra rb => regsNumber 16 ra rb 0 0
  | .ri ra rb => regsNumber 17 ra rb 0 0

end Sys2Proof.Machine

open Sys2Proof Sys2Proof.Machine

/-! ## Encoding (30_encoding.md) -/

/-- Decoding the bytes of a well-formed instruction's word gives the instruction back, with every operand, and the
bytes after it (R70, R71, R80, R84). -/
def Obligations.DecodeEncodeRoundTrip : Prop :=
  ∀ (i : Instr) (rest : List Byte), i.wellFormed = true → decode (bytesOfWord (encode i) ++ rest) = .ok (i, rest)

/-- Encoding what a word decodes to keeps exactly the bits the instruction's row names and clears the others; what is
decoded is well-formed. That unread bits are ignored and encoded as 0 is the spec's own decision D5 (R73, R84; log entry
5); that a word is read under one name, which well-formedness checks, is the model's choice (log entry 18). -/
def Obligations.EncodeDecodeKeepsRowBits : Prop :=
  ∀ w : Word, encode (decodeWord w) = w &&& rowBits (decodeWord w) ∧ (decodeWord w).wellFormed = true

/-- Two words that agree on the bits of the row decode alike: the other bits are ignored (R73; the spec's decision D5, log
entry 5). -/
def Obligations.UnreadBitsAreIgnored : Prop :=
  ∀ w w' : Word, w &&& rowBits (decodeWord w) = w' &&& rowBits (decodeWord w) → decodeWord w' = decodeWord w

/-- Every list of four bytes or more decodes, and every shorter list is rejected by name (R71, R83); the four reserved
operation codes, and they alone, decode to the reserved instructions (R81). -/
def Obligations.DecoderIsTotal : Prop :=
  (∀ bs : List Byte, 4 ≤ bs.length → ∃ i, decode bs = .ok (i, bs.drop 4)) ∧
  (∀ bs : List Byte, bs.length < 4 → decode bs = .error .tooShort) ∧
  (∀ w : Word,
    (decodeWord w = .reservedOp7 ↔ w.toNat / 2 ^ 27 = 7) ∧ (decodeWord w = .reservedOp18 ↔ w.toNat / 2 ^ 27 = 18) ∧
    (decodeWord w = .reservedOp19 ↔ w.toNat / 2 ^ 27 = 19) ∧ (decodeWord w = .reservedOp25 ↔ w.toNat / 2 ^ 27 = 25))

/-- Words written out from the spec's encodings decode to the instructions they stand for. -/
def Obligations.SpecWordsDecode : Prop :=
  decodeWord 0x088A0018 = .ld 2 5 24 ∧ decodeWord 0x113FFFF8 = .ldr 4 (-8) ∧ decodeWord 0x400A2003 = .brnz 5 2 ∧
  decodeWord 0x4FC80001 = .brlAlways 31 4 0 ∧ decodeWord 0x6885FFFF = .addi 2 2 (-1) ∧
  decodeWord 0x60443000 = .add 1 2 3 ∧ decodeWord 0x78403000 = .neg 1 3 ∧ decodeWord 0xD0443000 = .shr 1 2 3 0 ∧
  decodeWord 0x80440000 = .svi 1 2 ∧
  decodeWord 0xFFFFFFFF = .stop ∧ decodeWord 0x90000000 = .reservedOp18

/-- Every form of Table A.2 assembles to the word whose fields R91 to R94 and R97 list for it, and that word decodes to
the form's instruction (R90). That a field a form does not name is 0 is the spec's own decision D5 (R84, log entry 5);
that a branch word is read under its condition's own name is the model's choice (log entry 18). -/
def Obligations.AssembledFormsDecode : Prop :=
  ∀ f : AsmForm, f.word.toNat = formNumber f ∧ decode (bytesOfWord f.word) = .ok (f.instr, [])

/-- Sign extension (R11): the low bits are the field, the upper bits copies of its top bit. -/
def Obligations.ImmediatesAreSignExtended : Prop :=
  (∀ (c2 : BitVec 17) (k : Nat), k < 32 → (imm17 c2).getLsbD k = if k < 17 then c2.getLsbD k else c2.getLsbD 16) ∧
  (∀ (c1 : BitVec 22) (k : Nat), k < 32 → (imm22 c1).getLsbD k = if k < 22 then c1.getLsbD k else c1.getLsbD 21)

/-! ## Load and store (40_load_store.md) -/

/-- `ld` (R100, R74): the word at `disp`, with `rb` = 0 meaning no base. -/
def Obligations.LdLoadsWordAtDisp : Prop :=
  ∀ (ra rb : Reg) (c2 : BitVec 17) (s : State),
    WordIs (.ld ra rb c2) (1 * 2 ^ 27 + ra.val * 2 ^ 22 + rb.val * 2 ^ 17 + c2.toNat) ∧
    ∃ a : Word, (rb = 0 → a = imm17 c2) ∧ (rb ≠ 0 → a = s.readReg rb + imm17 c2) ∧
      RegResult (.ld ra rb c2) ra
        (s.readByte a ++ s.readByte (a + 1) ++ s.readByte (a + 2) ++ s.readByte (a + 3)) s

/-- `ldr` (R101, R75): the word at the advanced `PC` plus the displacement. -/
def Obligations.LdrLoadsWordAtRel : Prop :=
  ∀ (ra : Reg) (c1 : BitVec 22) (s : State),
    WordIs (.ldr ra c1) (2 * 2 ^ 27 + ra.val * 2 ^ 22 + c1.toNat) ∧
    ∃ a : Word, a = s.pc + imm22 c1 ∧
      RegResult (.ldr ra c1) ra
        (s.readByte a ++ s.readByte (a + 1) ++ s.readByte (a + 2) ++ s.readByte (a + 3)) s

/-- `st` (R102, R74): `R[ra]` at `disp`; for the address the meaning computes, no byte outside its word changes. -/
def Obligations.StStoresWordAtDisp : Prop :=
  ∀ (ra rb : Reg) (c2 : BitVec 17) (s : State),
    WordIs (.st ra rb c2) (3 * 2 ^ 27 + ra.val * 2 ^ 22 + rb.val * 2 ^ 17 + c2.toNat) ∧
    (rb = 0 → disp s rb c2 = imm17 c2) ∧ (rb ≠ 0 → disp s rb c2 = s.readReg rb + imm17 c2) ∧
    ∀ a, storeAddress s (.st ra rb c2) = some a →
      a = disp s rb c2 ∧ StoreResult (.st ra rb c2) a (s.readReg ra) s

/-- `str` (R103, R75): `R[ra]` at the advanced `PC` plus the displacement; no byte outside that word changes. -/
def Obligations.StrStoresWordAtRel : Prop :=
  ∀ (ra : Reg) (c1 : BitVec 22) (s : State),
    WordIs (.str ra c1) (4 * 2 ^ 27 + ra.val * 2 ^ 22 + c1.toNat) ∧
    ∀ a, storeAddress s (.str ra c1) = some a →
      a = s.pc + imm22 c1 ∧ StoreResult (.str ra c1) a (s.readReg ra) s

/-- `st` and `str` complete, in every state: the address their statements speak of always exists. -/
def Obligations.StoresComplete : Prop :=
  (∀ (ra rb : Reg) (c2 : BitVec 17) (s : State), StoreResult (.st ra rb c2) (disp s rb c2) (s.readReg ra) s) ∧
  (∀ (ra : Reg) (c1 : BitVec 22) (s : State), StoreResult (.str ra c1) (s.pc + imm22 c1) (s.readReg ra) s)

/-- `la` and `lar` (R104, R105): the address itself; all of memory is unchanged. -/
def Obligations.LaAndLarLoadAddresses : Prop :=
  (∀ (ra rb : Reg) (c2 : BitVec 17) (s : State),
    WordIs (.la ra rb c2) (5 * 2 ^ 27 + ra.val * 2 ^ 22 + rb.val * 2 ^ 17 + c2.toNat) ∧
    (rb = 0 → RegResult (.la ra rb c2) ra (imm17 c2) s) ∧
    (rb ≠ 0 → RegResult (.la ra rb c2) ra (s.readReg rb + imm17 c2) s)) ∧
  (∀ (ra : Reg) (c1 : BitVec 22) (s : State),
    WordIs (.lar ra c1) (6 * 2 ^ 27 + ra.val * 2 ^ 22 + c1.toNat) ∧
    RegResult (.lar ra c1) ra (s.pc + imm22 c1) s)

/-! ## Branches (41_branch.md) -/

/-- `br` (R110, R76): taken exactly when the condition holds of `R[rc]`. The last clause, that the two codes without an arm
are refused under the default parameter, is the spec's own decision D4 (R77, log entry 4). -/
def Obligations.BrBranchesOnCondition : Prop :=
  ∀ (rb rc : Reg) (c : Cond) (s : State),
    WordIs (.br rb rc c) (8 * 2 ^ 27 + rb.val * 2 ^ 17 + rc.val * 2 ^ 12 + c.toBits.toNat) ∧
    (c ≠ .reserved6 → c ≠ .reserved7 → BranchResult (.br rb rc c) c rb rc s) ∧
    (c = .reserved6 ∨ c = .reserved7 → s.params.reservedCond = .refuse →
      exec (.br rb rc c) s = .refused .reservedCond)

/-- `brl` (R111, R76): links whether or not it branches, to the old `R[rb]`, on the old `R[rc]`. The last clause, that the
two codes without an arm are refused under the default parameter, is the spec's own decision D4 (R77, log entry 4). -/
def Obligations.BrlLinksAndBranches : Prop :=
  ∀ (ra rb rc : Reg) (c : Cond) (s : State),
    WordIs (.brl ra rb rc c) (9 * 2 ^ 27 + ra.val * 2 ^ 22 + rb.val * 2 ^ 17 + rc.val * 2 ^ 12 + c.toBits.toNat) ∧
    (c ≠ .reserved6 → c ≠ .reserved7 → LinkResult (.brl ra rb rc c) c ra rb rc s) ∧
    (c = .reserved6 ∨ c = .reserved7 → s.params.reservedCond = .refuse →
      exec (.brl ra rb rc c) s = .refused .reservedCond)

/-- The two condition codes without an arm (R77; the spec's decision D4, log entry 4) under the parameter `ReservedCond`:
refused by default; under the alternative `br` is not taken and `brl` still links. -/
def Obligations.ReservedCondsFollowParameter : Prop :=
  ∀ (ra rb rc : Reg) (c : Cond) (s : State), c = .reserved6 ∨ c = .reserved7 →
    (s.params.reservedCond = .refuse →
      exec (.br rb rc c) s = .refused .reservedCond ∧ exec (.brl ra rb rc c) s = .refused .reservedCond) ∧
    (s.params.reservedCond = .never →
      BranchResult (.br rb rc c) .never rb rc s ∧ LinkResult (.brl ra rb rc c) .never ra rb rc s)

/-- The named forms of `br` branch on their fixed conditions (R112, R94), `brpl` on zero too. -/
def Obligations.NamedBrFormsBranch : Prop :=
  ∀ (rb rc : Reg) (s : State),
    BranchResult (.brAlways rb rc) .always rb rc s ∧ BranchResult (.brzr rb rc) .zero rb rc s ∧
    BranchResult (.brnz rb rc) .nonzero rb rc s ∧ BranchResult (.brpl rb rc) .plus rb rc s ∧
    BranchResult (.brmi rb rc) .minus rb rc s

/-- The named forms of `brl` link and branch on their fixed conditions (R112, R94), `brlpl` on zero too. -/
def Obligations.NamedBrlFormsLink : Prop :=
  ∀ (ra rb rc : Reg) (s : State),
    LinkResult (.brlAlways ra rb rc) .always ra rb rc s ∧ LinkResult (.brlnv ra rb rc) .never ra rb rc s ∧
    LinkResult (.brlzr ra rb rc) .zero ra rb rc s ∧ LinkResult (.brlnz ra rb rc) .nonzero ra rb rc s ∧
    LinkResult (.brlpl ra rb rc) .plus ra rb rc s ∧ LinkResult (.brlmi ra rb rc) .minus ra rb rc s

/-- A named form has no semantics of its own (R112): it has the word and the effect of `br` or `brl` with its condition. -/
def Obligations.NamedFormsAreTheGeneralForm : Prop :=
  ∀ (ra rb rc : Reg) (c : Cond) (s : State),
    (encode (brOfCond rb rc c) = encode (.br rb rc c) ∧ exec (brOfCond rb rc c) s = exec (.br rb rc c) s) ∧
    (encode (brlOfCond ra rb rc c) = encode (.brl ra rb rc c) ∧
      exec (brlOfCond ra rb rc c) s = exec (.brl ra rb rc c) s)

/-! ## Arithmetic and logic (42_arithmetic.md) -/

/-- `add` and `addi` (R120, R121): the sum of the two's complement numbers, modulo 2^32; `rb` = 0 is an ordinary
register of `addi`. -/
def Obligations.AddAndAddiWrap : Prop :=
  (∀ (ra rb rc : Reg) (s : State),
    WordIs (.add ra rb rc) (12 * 2 ^ 27 + ra.val * 2 ^ 22 + rb.val * 2 ^ 17 + rc.val * 2 ^ 12) ∧
    RegResult (.add ra rb rc) ra (BitVec.ofInt 32 ((s.readReg rb).toInt + (s.readReg rc).toInt)) s) ∧
  (∀ (ra rb : Reg) (c2 : BitVec 17) (s : State),
    WordIs (.addi ra rb c2) (13 * 2 ^ 27 + ra.val * 2 ^ 22 + rb.val * 2 ^ 17 + c2.toNat) ∧
    RegResult (.addi ra rb c2) ra (BitVec.ofInt 32 ((s.readReg rb).toInt + c2.toInt)) s)

/-- `sub` and `neg` (R122, R123): the difference, and the negative, modulo 2^32; `neg`'s operand is in the `rc` field. -/
def Obligations.SubAndNegWrap : Prop :=
  (∀ (ra rb rc : Reg) (s : State),
    WordIs (.sub ra rb rc) (14 * 2 ^ 27 + ra.val * 2 ^ 22 + rb.val * 2 ^ 17 + rc.val * 2 ^ 12) ∧
    RegResult (.sub ra rb rc) ra (BitVec.ofInt 32 ((s.readReg rb).toInt - (s.readReg rc).toInt)) s) ∧
  (∀ (ra rc : Reg) (s : State),
    WordIs (.neg ra rc) (15 * 2 ^ 27 + ra.val * 2 ^ 22 + rc.val * 2 ^ 12) ∧
    RegResult (.neg ra rc) ra (BitVec.ofInt 32 (-(s.readReg rc).toInt)) s)

/-- `and` and `andi` (R124, R125), bit by bit; the immediate is sign-extended. -/
def Obligations.AndAndAndiBitwise : Prop :=
  (∀ (ra rb rc : Reg) (s : State),
    WordIs (.and ra rb rc) (20 * 2 ^ 27 + ra.val * 2 ^ 22 + rb.val * 2 ^ 17 + rc.val * 2 ^ 12) ∧
    RegBitsResult (.and ra rb rc) ra (fun k => (s.readReg rb).getLsbD k && (s.readReg rc).getLsbD k) s) ∧
  (∀ (ra rb : Reg) (c2 : BitVec 17) (s : State),
    WordIs (.andi ra rb c2) (21 * 2 ^ 27 + ra.val * 2 ^ 22 + rb.val * 2 ^ 17 + c2.toNat) ∧
    RegBitsResult (.andi ra rb c2) ra
      (fun k => (s.readReg rb).getLsbD k && if k < 17 then c2.getLsbD k else c2.getLsbD 16) s)

/-- `or` and `ori` (R126, R127), bit by bit; the immediate is sign-extended. -/
def Obligations.OrAndOriBitwise : Prop :=
  (∀ (ra rb rc : Reg) (s : State),
    WordIs (.or ra rb rc) (22 * 2 ^ 27 + ra.val * 2 ^ 22 + rb.val * 2 ^ 17 + rc.val * 2 ^ 12) ∧
    RegBitsResult (.or ra rb rc) ra (fun k => (s.readReg rb).getLsbD k || (s.readReg rc).getLsbD k) s) ∧
  (∀ (ra rb : Reg) (c2 : BitVec 17) (s : State),
    WordIs (.ori ra rb c2) (23 * 2 ^ 27 + ra.val * 2 ^ 22 + rb.val * 2 ^ 17 + c2.toNat) ∧
    RegBitsResult (.ori ra rb c2) ra
      (fun k => (s.readReg rb).getLsbD k || if k < 17 then c2.getLsbD k else c2.getLsbD 16) s)

/-- `not` (R128): the complement of all 32 bits; the operand is in the `rc` field. -/
def Obligations.NotComplements : Prop :=
  ∀ (ra rc : Reg) (s : State),
    WordIs (.not ra rc) (24 * 2 ^ 27 + ra.val * 2 ^ 22 + rc.val * 2 ^ 12) ∧
    RegBitsResult (.not ra rc) ra (fun k => !(s.readReg rc).getLsbD k) s

/-! ## Shifts (43_shift.md); the count is `countOf` (R78) -/

/-- `shr` (R140): zeros enter at the top; the quotient by 2^n. -/
def Obligations.ShrShiftsInZeros : Prop :=
  ∀ (ra rb rc : Reg) (c3 : BitVec 5) (s : State),
    WordIs (.shr ra rb rc c3) (26 * 2 ^ 27 + ra.val * 2 ^ 22 + rb.val * 2 ^ 17 + rc.val * 2 ^ 12 + c3.toNat) ∧
    RegResult (.shr ra rb rc c3) ra (BitVec.ofNat 32 ((s.readReg rb).toNat / 2 ^ countOf s rc c3)) s ∧
    RegBitsResult (.shr ra rb rc c3) ra
      (fun k => if k + countOf s rc c3 < 32 then (s.readReg rb).getLsbD (k + countOf s rc c3) else false) s

/-- `shra` (R141): copies of the sign enter at the top; the quotient by 2^n rounded toward minus infinity. -/
def Obligations.ShraShiftsInSign : Prop :=
  ∀ (ra rb rc : Reg) (c3 : BitVec 5) (s : State),
    WordIs (.shra ra rb rc c3) (27 * 2 ^ 27 + ra.val * 2 ^ 22 + rb.val * 2 ^ 17 + rc.val * 2 ^ 12 + c3.toNat) ∧
    RegResult (.shra ra rb rc c3) ra (BitVec.ofInt 32 ((s.readReg rb).toInt / 2 ^ countOf s rc c3)) s ∧
    RegBitsResult (.shra ra rb rc c3) ra
      (fun k => if k + countOf s rc c3 < 32 then (s.readReg rb).getLsbD (k + countOf s rc c3)
        else (s.readReg rb).getLsbD 31) s

/-- `shl` (R142): zeros enter at the bottom; the product by 2^n modulo 2^32. -/
def Obligations.ShlMultiplies : Prop :=
  ∀ (ra rb rc : Reg) (c3 : BitVec 5) (s : State),
    WordIs (.shl ra rb rc c3) (28 * 2 ^ 27 + ra.val * 2 ^ 22 + rb.val * 2 ^ 17 + rc.val * 2 ^ 12 + c3.toNat) ∧
    RegResult (.shl ra rb rc c3) ra (BitVec.ofNat 32 ((s.readReg rb).toNat * 2 ^ countOf s rc c3)) s ∧
    RegBitsResult (.shl ra rb rc c3) ra
      (fun k => if k < countOf s rc c3 then false else (s.readReg rb).getLsbD (k - countOf s rc c3)) s

/-- `shc` (R143): the bits that leave at the top re-enter at the bottom. That a count of 0 copies, which both result
clauses say, is the spec's own decision D12 (R144, log entry 15). -/
def Obligations.ShcRotates : Prop :=
  ∀ (ra rb rc : Reg) (c3 : BitVec 5) (s : State),
    WordIs (.shc ra rb rc c3) (29 * 2 ^ 27 + ra.val * 2 ^ 22 + rb.val * 2 ^ 17 + rc.val * 2 ^ 12 + c3.toNat) ∧
    RegBitsResult (.shc ra rb rc c3) ra (fun k => (s.readReg rb).getLsbD ((k + (32 - countOf s rc c3)) % 32)) s ∧
    (countOf s rc c3 = 0 → RegResult (.shc ra rb rc c3) ra (s.readReg rb) s)

/-! ## Interrupt instructions (44_interrupt.md) -/

/-- `een` (R150): only `IE` changes, to 1, and a request that is up is taken in the very next step, with `IPC` the
address of the instruction after `een`. -/
def Obligations.EenEnables : Prop :=
  ∀ s : State, WordIs .een (10 * 2 ^ 27) ∧ ∃ t, exec .een s = .next t ∧ t.ie = true ∧
    KeepsRegsBut [] s t ∧ t.pc = s.pc ∧ KeepsMemory s t ∧ t.ipc = s.ipc ∧ t.ii = s.ii ∧ KeepsRunAndIr s t ∧
    KeepsSignals s t ∧
    (t.run = true → t.sampleInputs.rst = false → t.sampleInputs.ireq = true →
      ∃ u, step t = .next u ∧ u.ipc = s.pc ∧ u.pc.toNat = 16 * t.sampleInputs.isrcVect.toNat)

/-- `edi` (R151): only `IE` changes, to 0; with `IE` = 0 no step takes an interrupt, however the inputs are, and only
`een` or `rfi` sets `IE` again. -/
def Obligations.EdiDisables : Prop :=
  ∀ s : State, WordIs .edi (11 * 2 ^ 27) ∧ ∃ t, exec .edi s = .next t ∧ t.ie = false ∧
    KeepsRegsBut [] s t ∧ t.pc = s.pc ∧ KeepsMemory s t ∧ t.ipc = s.ipc ∧ t.ii = s.ii ∧ KeepsRunAndIr s t ∧
    KeepsSignals s t ∧
    ∀ u : State, u.ie = false → u.sampleInputs.arm ≠ .interruptEntry ∧
      ∀ v, step u = .next v → v.ie = true → decodeWord u.fetchWord = .een ∨ decodeWord u.fetchWord = .rfi

/-- `rfi` (R152, R178): `PC` from `IPC` and `IE` to 1; `IPC`, `II` and everything else stay; a request still up is taken
before the instruction returned to. -/
def Obligations.RfiReturns : Prop :=
  ∀ s : State, WordIs .rfi (30 * 2 ^ 27) ∧ ∃ t, exec .rfi s = .next t ∧ t.pc = s.ipc ∧ t.ie = true ∧
    KeepsRegsBut [] s t ∧ KeepsMemory s t ∧ t.ipc = s.ipc ∧ t.ii = s.ii ∧ KeepsRunAndIr s t ∧ KeepsSignals s t ∧
    (t.run = true → t.sampleInputs.rst = false → t.sampleInputs.ireq = true →
      ∃ u, step t = .next u ∧ u.ipc = s.ipc ∧ u.pc.toNat = 16 * t.sampleInputs.isrcVect.toNat)

/-- `svi` (R153): `II〈15..0〉` to the low half of `R[ra]`, its upper half kept, `IPC` to `R[rb]`. The last clause,
that equal registers are refused, is the spec's own decision D6 (log entry 6). -/
def Obligations.SviSavesInterruptState : Prop :=
  ∀ (ra rb : Reg) (s : State), WordIs (.svi ra rb) (16 * 2 ^ 27 + ra.val * 2 ^ 22 + rb.val * 2 ^ 17) ∧
    (ra ≠ rb → ∃ t, exec (.svi ra rb) s = .next t ∧
      (t.readReg ra).extractLsb' 0 16 = s.ii.extractLsb' 0 16 ∧
      (t.readReg ra).extractLsb' 16 16 = (s.readReg ra).extractLsb' 16 16 ∧
      t.readReg rb = s.ipc ∧ OnlyRegs [ra, rb] s t) ∧
    (ra = rb → exec (.svi ra rb) s = .refused .sviSameRegister)

/-- `ri` (R154): the low half of `R[ra]` to `II〈15..0〉`, `II〈31..16〉` untouched, `R[rb]` to `IPC`; equal registers are an
ordinary case. -/
def Obligations.RiRestoresInterruptState : Prop :=
  ∀ (ra rb : Reg) (s : State), WordIs (.ri ra rb) (17 * 2 ^ 27 + ra.val * 2 ^ 22 + rb.val * 2 ^ 17) ∧
    ∃ t, exec (.ri ra rb) s = .next t ∧
      t.ii.extractLsb' 0 16 = (s.readReg ra).extractLsb' 0 16 ∧ t.ii.extractLsb' 16 16 = s.ii.extractLsb' 16 16 ∧
      t.ipc = s.readReg rb ∧ KeepsRegsBut [] s t ∧ t.pc = s.pc ∧ KeepsMemory s t ∧ t.ie = s.ie ∧ KeepsRunAndIr s t ∧
      KeepsSignals s t

/-- What `svi` saved, `ri` on the same registers restores exactly, whatever was done to `II〈15..0〉` and `IPC` between. -/
def Obligations.SviThenRiRestores : Prop :=
  ∀ (ra rb : Reg) (s t : State) (lo : BitVec 16) (v : Word), exec (.svi ra rb) s = .next t →
    ∃ u, exec (.ri ra rb) ((t.setIiLow lo).setIpc v) = .next u ∧ u.ii = s.ii ∧ u.ipc = s.ipc

/-! ## Miscellaneous (45_misc.md) and the reserved operation codes -/

/-- `nop` (R160): nothing changes beyond the fetch; it is every word below 0x08000000. -/
def Obligations.NopDoesNothing : Prop :=
  (∀ s : State, exec .nop s = .next s) ∧ (∀ w : Word, decodeWord w = .nop ↔ w.toNat < 0x08000000)

/-- `stop` (R161): only `Run` changes, to 0; every word from 0xF8000000 on is a `stop`; after it only a hard reset can
be a step, whatever the inputs are. -/
def Obligations.StopHalts : Prop :=
  (∀ w : Word, decodeWord w = .stop ↔ 0xF8000000 ≤ w.toNat) ∧
  ∀ s : State, ∃ t, exec .stop s = .next t ∧ t.run = false ∧ t.ir = s.ir ∧
    KeepsRegsBut [] s t ∧ t.pc = s.pc ∧ KeepsMemory s t ∧ KeepsInterruptState s t ∧ KeepsSignals s t ∧
    ∀ u, step t = .next u → t.sampleInputs.strt = true ∧ u = t.sampleInputs.hardReset

/-- The four reserved operation codes (R81; the spec's decision D3, log entry 3) under the parameter `ReservedOpcode`:
refused by default, under the alternative only the fetch's effects. -/
def Obligations.ReservedOpcodesFollowParameter : Prop :=
  ∀ (i : Instr) (s : State), i = .reservedOp7 ∨ i = .reservedOp18 ∨ i = .reservedOp19 ∨ i = .reservedOp25 →
    (s.params.reservedOpcode = .refuse → exec i s = .refused .reservedOpcode) ∧
    (s.params.reservedOpcode = .nop → exec i s = .next s)

/-! ## Memory (20_memory.md) -/

/-- A word written at any address, aligned or not, at the top of memory too, is read back, lies big-endian, and leaves
every other byte alone (R52, R53; that it wraps and need not be aligned is the spec's decision, D1, D2, log entries 1, 2). -/
def Obligations.WordWriteThenRead : Prop :=
  ∀ (s : State) (a v : Word), (s.writeWord a v).readWord a = v ∧ WordAt (s.writeWord a v) a v ∧
    ∀ b, b ∉ wordAddresses a → (s.writeWord a v).readByte b = s.readByte b

/-- A word read (R52, R54): the byte at the lowest address is the most significant; addresses are modulo 2^32 (the
spec's decision D2, log entry 2). -/
def Obligations.WordReadIsBigEndian : Prop :=
  ∀ (s : State) (a : Word), (s.readWord a).toNat =
    (s.mem.read a.toNat).toNat * 2 ^ 24 + (s.mem.read ((a.toNat + 1) % 2 ^ 32)).toNat * 2 ^ 16 +
    (s.mem.read ((a.toNat + 2) % 2 ^ 32)).toNat * 2 ^ 8 + (s.mem.read ((a.toNat + 3) % 2 ^ 32)).toNat

/-- A store is seen by the very next fetch (R63): the word stored where `PC` points is the word fetched, if the next
step fetches. -/
def Obligations.StoreSeenByNextFetch : Prop :=
  ∀ (i : Instr) (ra : Reg) (a : Word) (s t : State),
    ((∃ rb c2, i = .st ra rb c2) ∨ ∃ c1, i = .str ra c1) → storeAddress s i = some a → exec i s = .next t →
    t.pc = a → t.sampleInputs.arm = .normalFetch →
    step t = exec (decodeWord (s.readReg ra)) t.sampleInputs.afterFetch ∧ t.sampleInputs.afterFetch.ir = s.readReg ra

/-- Memory is written by `st` and `str` only (R51): a byte a step changes is one of the four bytes of the word the
fetched store instruction stores to. -/
def Obligations.OnlyStoresWriteMemory : Prop :=
  ∀ (s t : State) (b : Word), step s = .next t → t.readByte b ≠ s.readByte b →
    s.sampleInputs.arm = .normalFetch ∧
    ∃ a, storeAddress s.sampleInputs.afterFetch (decodeWord s.fetchWord) = some a ∧ b ∈ wordAddresses a

/-! ## The step and its arms (60_exceptions.md, 70_reset_and_hazards.md) -/

/-- When the bytes at `PC` decode to an instruction and the fetch arm's guard holds, the step is that instruction's
meaning in the state whose `IR` holds the word and whose `PC` is 4 further (R26, R65, R176). -/
def Obligations.StepRunsDecodedInstruction : Prop :=
  ∀ (s : State) (i : Instr), decode [s.readByte s.pc, s.readByte (s.pc + 1), s.readByte (s.pc + 2), s.readByte (s.pc + 3)] =
      .ok (i, []) →
    s.run = true → s.sampleInputs.rst = false → ¬(s.sampleInputs.ireq = true ∧ s.ie = true) →
    step s = exec i { s.sampleInputs with ir := s.readWord s.pc, pc := s.pc + 4 }

/-- Hard reset (R200): on a halted machine with `Strt` up, `Run` to 1, `PC` and every register to 0, nothing else; no
instruction is fetched. -/
def Obligations.HardResetStep : Prop :=
  ∀ s : State, s.run = false → s.sampleInputs.strt = true → ∃ t, step s = .next t ∧
    t.run = true ∧ t.pc = 0 ∧ (∀ r, t.readReg r = 0) ∧ KeepsMemory s t ∧ KeepsInterruptState s t ∧ t.ir = s.ir ∧
    KeepsSignals s.sampleInputs t

/-- Soft reset (R201, R182): on a running machine with `Rst` up, whatever `ireq` and `IE` are, `Rst`, `IE` and `PC` to 0,
nothing else; no instruction is fetched. -/
def Obligations.SoftResetStep : Prop :=
  ∀ s : State, s.run = true → s.sampleInputs.rst = true → ∃ t, step s = .next t ∧
    t.rst = false ∧ t.ie = false ∧ t.pc = 0 ∧ KeepsRegsBut [] s t ∧ KeepsMemory s t ∧ t.ipc = s.ipc ∧ t.ii = s.ii ∧
    KeepsRunAndIr s t ∧ t.strt = s.sampleInputs.strt ∧ t.ireq = s.sampleInputs.ireq ∧ t.iack = s.iack ∧
    t.isrcInfo = s.sampleInputs.isrcInfo ∧ t.isrcVect = s.sampleInputs.isrcVect ∧ t.env = s.sampleInputs.env ∧
    t.acks = s.acks ∧ t.params = s.params

/-- Interrupt entry (R171, R173, R174, R175): `PC` saved in `IPC`, `Isrc_info` in `II〈15..0〉`, `IE` cleared, `PC` to
`Isrc_vect` times 16, `iack` back at 0; nothing else, and no instruction is fetched. That one event is added to the list
`acks` is the model's choice (D9, R175, log entry 12). -/
def Obligations.InterruptEntryStep : Prop :=
  ∀ s : State, s.run = true → s.sampleInputs.rst = false → s.sampleInputs.ireq = true → s.ie = true →
    ∃ t, step s = .next t ∧ t.ipc = s.pc ∧ t.ii.extractLsb' 0 16 = s.sampleInputs.isrcInfo ∧
      t.ii.extractLsb' 16 16 = s.ii.extractLsb' 16 16 ∧ t.ie = false ∧
      t.pc.toNat = 16 * s.sampleInputs.isrcVect.toNat ∧ t.iack = false ∧
      t.acks = s.acks ++ [{ isrcVect := s.sampleInputs.isrcVect, isrcInfo := s.sampleInputs.isrcInfo }] ∧
      KeepsRegsBut [] s t ∧ KeepsMemory s t ∧ KeepsRunAndIr s t ∧ t.strt = s.sampleInputs.strt ∧
      t.rst = s.sampleInputs.rst ∧ t.ireq = s.sampleInputs.ireq ∧ t.isrcInfo = s.sampleInputs.isrcInfo ∧
      t.isrcVect = s.sampleInputs.isrcVect ∧ t.env = s.sampleInputs.env ∧ t.params = s.params

/-- The one fault: a step stops with it exactly when the machine is halted and `Strt` is down (R206), whatever `Rst`,
`ireq` and `IE` are (R191); no instruction faults (R180). That "no step" is a fault is the model's choice (log
entry 16). -/
def Obligations.FaultExactlyWhenHalted : Prop :=
  ∀ (s : State) (f : Fault), step s = .fault f ↔ s.run = false ∧ s.sampleInputs.strt = false

/-- A step is refused exactly when the fetch arm fetched a word with no meaning under the parameters (R77, R81, R83,
R153; log entries 3, 4, 6). -/
def Obligations.RefusedExactlyWhenReserved : Prop :=
  ∀ s : State, (∃ r, step s = .refused r) ↔
    s.sampleInputs.arm = .normalFetch ∧ ¬Executable (decodeWord s.fetchWord) s.params

/-- Every instruction but those with no meaning under the parameters completes, in every state; those are refused by
name. Under the default parameters they are exactly the reserved encodings of R83 (log entries
3, 4, 6). -/
def Obligations.ExecCompletesUnlessReserved : Prop :=
  ∀ (i : Instr) (s : State), (Executable i s.params → ∃ t, exec i s = .next t) ∧
    (¬Executable i s.params → exec i s = .refused .reservedOpcode ∨ exec i s = .refused .reservedCond ∨
      exec i s = .refused .sviSameRegister) ∧
    (s.params = Params.default → (Executable i s.params ↔ i.reservedEncoding = false))

/-- Hard reset then soft reset (R203): with `Strt` and `Rst` both up on a halted machine, `Rst` is remembered through the
hard reset, and the two steps give `pc` = 0, all registers 0, `ie` = 0, `run` = 1, `rst` = 0, whatever the inputs of the
second step are; `IPC`, `II` and memory are as before. -/
def Obligations.HardThenSoftReset : Prop :=
  ∀ s : State, s.run = false → s.sampleInputs.strt = true → s.sampleInputs.rst = true →
    ∃ t u, step s = .next t ∧ t.rst = true ∧ t.ie = s.ie ∧ step t = .next u ∧ u.pc = 0 ∧ (∀ r, u.readReg r = 0) ∧
      u.ie = false ∧ u.run = true ∧ u.rst = false ∧ u.ipc = s.ipc ∧ u.ii = s.ii ∧ KeepsMemory s u

/-- An interrupt is precise (R177, R178): after the entry, `rfi` leads back to the instruction that would have been
fetched, with `IE` as it was and every register and byte of memory unchanged. -/
def Obligations.InterruptThenRfiResumes : Prop :=
  ∀ s t : State, s.sampleInputs.arm = .interruptEntry → step s = .next t →
    ∃ u, exec .rfi t = .next u ∧ u.pc = s.pc ∧ u.ie = s.ie ∧ KeepsRegsBut [] s u ∧ KeepsMemory s u ∧ u.run = s.run

/-- What writes `PC` (R27): an instruction other than `br`, `brl` (in any form) and `rfi` leaves the fetch's `PC` + 4;
the two resets leave 0, the interrupt entry a multiple of 16 below 4096. -/
def Obligations.PcWritersAreThese : Prop :=
  ∀ s t : State, step s = .next t →
    (s.sampleInputs.arm = .normalFetch → (decodeWord s.fetchWord).writesPc = false → t.pc = s.pc + 4) ∧
    (s.sampleInputs.arm = .hardReset ∨ s.sampleInputs.arm = .softReset → t.pc = 0) ∧
    (s.sampleInputs.arm = .interruptEntry → t.pc.toNat % 16 = 0 ∧ t.pc.toNat < 4096)

/-- What writes `IE` (R30, R183): only `een` and `rfi` set it; only `edi`, the soft reset and the interrupt entry clear
it. -/
def Obligations.IeWritersAreThese : Prop :=
  ∀ s t : State, step s = .next t →
    (s.ie = false → t.ie = true →
      s.sampleInputs.arm = .normalFetch ∧ (decodeWord s.fetchWord = .een ∨ decodeWord s.fetchWord = .rfi)) ∧
    (s.ie = true → t.ie = false →
      s.sampleInputs.arm = .softReset ∨ s.sampleInputs.arm = .interruptEntry ∨
      (s.sampleInputs.arm = .normalFetch ∧ decodeWord s.fetchWord = .edi))

/-- What writes `IPC` and `II` (R31, R32): only the interrupt entry and `ri`; no step ever changes `II〈31..16〉`. -/
def Obligations.IpcAndIiWritersAreThese : Prop :=
  ∀ s t : State, step s = .next t →
    (t.ipc ≠ s.ipc ∨ t.ii ≠ s.ii → s.sampleInputs.arm = .interruptEntry ∨
      (s.sampleInputs.arm = .normalFetch ∧ ∃ ra rb, decodeWord s.fetchWord = .ri ra rb)) ∧
    t.ii.extractLsb' 16 16 = s.ii.extractLsb' 16 16

/-- What writes `Run` (R29): only the hard reset sets it; only `stop` clears it. -/
def Obligations.RunWritersAreThese : Prop :=
  ∀ s t : State, step s = .next t →
    (s.run = false → s.sampleInputs.arm = .hardReset ∧ t.run = true) ∧
    (s.run = true → (t.run = false ↔ s.sampleInputs.arm = .normalFetch ∧ decodeWord s.fetchWord = .stop))

/-- The input signals are never written by the processor (R38, R40, R42, R43), `Rst` is cleared by the soft reset only
(R39), one acknowledge event is recorded by each interrupt entry and none by any other step (R175, R41), and the
parameters never change. The lists `env` and `acks` are the model's choice (log entries 11 and 12). -/
def Obligations.SignalsAndEvents : Prop :=
  ∀ s t : State, step s = .next t →
    t.strt = s.sampleInputs.strt ∧ t.ireq = s.sampleInputs.ireq ∧ t.isrcInfo = s.sampleInputs.isrcInfo ∧
    t.isrcVect = s.sampleInputs.isrcVect ∧ t.env = s.env.tail ∧ t.params = s.params ∧
    (s.sampleInputs.arm = .softReset → t.rst = false) ∧ (s.sampleInputs.arm ≠ .softReset → t.rst = s.sampleInputs.rst) ∧
    (s.sampleInputs.arm = .interruptEntry →
      t.acks = s.acks ++ [{ isrcVect := s.sampleInputs.isrcVect, isrcInfo := s.sampleInputs.isrcInfo }]) ∧
    (s.sampleInputs.arm ≠ .interruptEntry → t.acks = s.acks) ∧
    (s.sampleInputs.arm = .interruptEntry → t.iack = false) ∧ (s.sampleInputs.arm ≠ .interruptEntry → t.iack = s.iack)

/-- How the model takes the environment's parameter `Env` (D8; the list is the model's choice, log entry 11): the next
input's levels are taken over, `Rst` can only be raised (R39), nothing else changes; with no input listed nothing does. -/
def Obligations.InputsAreSampled : Prop :=
  ∀ s : State,
    (s.env = [] → s.sampleInputs = s) ∧
    (∀ e rest, s.env = e :: rest →
      s.sampleInputs.strt = e.strt ∧ s.sampleInputs.ireq = e.ireq ∧ s.sampleInputs.isrcInfo = e.isrcInfo ∧
      s.sampleInputs.isrcVect = e.isrcVect ∧ s.sampleInputs.env = rest ∧
      (s.sampleInputs.rst = true ↔ s.rst = true ∨ e.raiseRst = true)) ∧
    OnlyRegs [] s
      { s.sampleInputs with
        strt := s.strt, rst := s.rst, ireq := s.ireq, isrcInfo := s.isrcInfo, isrcVect := s.isrcVect, env := s.env }

/-! ## Registers (10_state.md R22) -/

/-- An instruction depends on the registers it reads and no others (R22): changing a register it neither reads nor
writes changes the outcome by that register alone; the old contents of a register it writes and does not read do not
matter (but for the half of `R[ra]` that `svi` keeps). -/
def Obligations.OnlyReadRegistersMatter : Prop :=
  ∀ (i : Instr) (s : State) (r : Reg) (v : Word), r ∉ i.reads →
    (r ∉ i.writes → exec i (s.writeReg r v) = mapNext (fun t => t.writeReg r v) (exec i s)) ∧
    (r ∈ i.writes → (∀ rb, i ≠ .svi r rb) → exec i (s.writeReg r v) = exec i s)

/-! ## Invariant, reset, loader -/

/-- From every state with memory in canonical form and `iack` at 0 (R41, R175), a step leads to such a state. -/
def Obligations.StepKeepsInvariant : Prop :=
  ∀ s t : State, s.Inv → step s = .next t → t.Inv

/-- The state after reset: the fully initialised state of R203, and it meets the invariant. The values of `PC`, the
registers, `Run`, `IE` and `Rst` are the spec's (R203); that `State.reset` is this state is the model's choice (log entry
7), and so are, inside the invariant, `iack` at 0 (unspecified in R45, log entry 9) and the empty memory (log entry 10). -/
def Obligations.ResetState : Prop :=
  Sys2Proof.core.reset.pc = 0 ∧ (∀ r, Sys2Proof.core.reset.readReg r = 0) ∧ Sys2Proof.core.reset.run = true ∧
  Sys2Proof.core.reset.ie = false ∧ Sys2Proof.core.reset.rst = false ∧ Sys2Proof.core.reset.Inv

/-- Words placed by `.dc` after `.org` lie as words of `M` from the given address on, and the loader changes nothing but
memory, there and nowhere else (R95, R53). The loader is outside the machine (log entry 17). The model's choices: words
placed past 0xFFFFFFFF go on at address 0, the location counter being modulo 2^32 (log entry 2), and `a` need not be a
multiple of 4 (log entry 21). -/
def Obligations.LoaderPlacesWords : Prop :=
  ∀ (s : State) (a : Word) (ws : List Word), 4 * ws.length ≤ 2 ^ 32 →
    (∀ k, (h : k < ws.length) →
      (s.load [.directive (.org a), .directive (.dc ws)]).readWord (a + BitVec.ofNat 32 (4 * k)) = ws[k]) ∧
    (∀ b : Word, 4 * ws.length ≤ (b - a).toNat →
      (s.load [.directive (.org a), .directive (.dc ws)]).readByte b = s.readByte b) ∧
    (s.load [.directive (.org a), .directive (.dc ws)]) =
      { s with mem := (s.load [.directive (.org a), .directive (.dc ws)]).mem }
end

