-- ==== Sys2Proof/Laws/Bits.lean ====
section
/-! SUPPORT. The bits of every concatenation the model makes (halves of a word, the four bytes of a word, the fields of
an encoded instruction), and the fields read back from an encoded instruction. -/

namespace Sys2Proof

/-! ## Bits of concatenations; the width of each is written as the sum the library's lemma has -/

theorem getLsbD_halves (hi lo : BitVec 16) (i : Nat) :
    (hi ++ lo : Word).getLsbD i = if i < 16 then lo.getLsbD i else hi.getLsbD (i - 16) :=
  BitVec.getLsbD_append (x := hi) (y := lo)

theorem getLsbD_bytes (b0 b1 b2 b3 : Byte) (i : Nat) :
    (b0 ++ b1 ++ b2 ++ b3 : Word).getLsbD i =
      if i < 8 then b3.getLsbD i
      else if i < 16 then b2.getLsbD (i - 8)
      else if i < 24 then b1.getLsbD (i - 16)
      else b0.getLsbD (i - 24) := by
  have h1 := BitVec.getLsbD_append (x := b0 ++ b1 ++ b2) (y := b3) (i := i)
  have h2 := BitVec.getLsbD_append (x := b0 ++ b1) (y := b2) (i := i - 8)
  have h3 := BitVec.getLsbD_append (x := b0) (y := b1) (i := i - 8 - 8)
  refine h1.trans ?_
  rw [h2, h3]
  by_cases h : i < 8
  · simp [h]
  · simp only [h, if_false, show (i - 8 < 8 ↔ i < 16) by omega, show (i - 16 < 8 ↔ i < 24) by omega,
      show i - 8 - 8 = i - 16 by omega, show i - 16 - 8 = i - 24 by omega]

/-- The bits of a register form, field by field from the top. -/
theorem getLsbD_packRegs (op : BitVec 5) (ra rb rc : Reg) (c3 : BitVec 12) (i : Nat) :
    (packRegs op ra rb rc c3).getLsbD i =
      if i < 12 then c3.getLsbD i
      else if i < 17 then (regBits rc).getLsbD (i - 12)
      else if i < 22 then (regBits rb).getLsbD (i - 17)
      else if i < 27 then (regBits ra).getLsbD (i - 22)
      else op.getLsbD (i - 27) := by
  have h1 := BitVec.getLsbD_append (x := op ++ regBits ra ++ regBits rb ++ regBits rc) (y := c3) (i := i)
  have h2 := BitVec.getLsbD_append (x := op ++ regBits ra ++ regBits rb) (y := regBits rc) (i := i - 12)
  have h3 := BitVec.getLsbD_append (x := op ++ regBits ra) (y := regBits rb) (i := i - 12 - 5)
  have h4 := BitVec.getLsbD_append (x := op) (y := regBits ra) (i := i - 12 - 5 - 5)
  refine h1.trans ?_
  rw [h2, h3, h4]
  by_cases h : i < 12
  · simp [h]
  · simp only [h, if_false, show (i - 12 < 5 ↔ i < 17) by omega, show (i - 17 < 5 ↔ i < 22) by omega,
      show (i - 22 < 5 ↔ i < 27) by omega, show i - 12 - 5 = i - 17 by omega,
      show i - 17 - 5 = i - 22 by omega, show i - 22 - 5 = i - 27 by omega]

/-- The bits of a displacement or immediate form. -/
theorem getLsbD_packC2 (op : BitVec 5) (ra rb : Reg) (c2 : BitVec 17) (i : Nat) :
    (packC2 op ra rb c2).getLsbD i =
      if i < 17 then c2.getLsbD i
      else if i < 22 then (regBits rb).getLsbD (i - 17)
      else if i < 27 then (regBits ra).getLsbD (i - 22)
      else op.getLsbD (i - 27) := by
  have h1 := BitVec.getLsbD_append (x := op ++ regBits ra ++ regBits rb) (y := c2) (i := i)
  have h2 := BitVec.getLsbD_append (x := op ++ regBits ra) (y := regBits rb) (i := i - 17)
  have h3 := BitVec.getLsbD_append (x := op) (y := regBits ra) (i := i - 17 - 5)
  refine h1.trans ?_
  rw [h2, h3]
  by_cases h : i < 17
  · simp [h]
  · simp only [h, if_false, show (i - 17 < 5 ↔ i < 22) by omega, show (i - 22 < 5 ↔ i < 27) by omega,
      show i - 17 - 5 = i - 22 by omega, show i - 22 - 5 = i - 27 by omega]

/-- The bits of a relative form. -/
theorem getLsbD_packC1 (op : BitVec 5) (ra : Reg) (c1 : BitVec 22) (i : Nat) :
    (packC1 op ra c1).getLsbD i =
      if i < 22 then c1.getLsbD i
      else if i < 27 then (regBits ra).getLsbD (i - 22)
      else op.getLsbD (i - 27) := by
  have h1 := BitVec.getLsbD_append (x := op ++ regBits ra) (y := c1) (i := i)
  have h2 := BitVec.getLsbD_append (x := op) (y := regBits ra) (i := i - 22)
  refine h1.trans ?_
  rw [h2]
  by_cases h : i < 22
  · simp [h]
  · simp only [h, if_false, show (i - 22 < 5 ↔ i < 27) by omega, show i - 22 - 5 = i - 27 by omega]

/-! ## Fields of an encoded instruction -/

theorem toFin_regBits (r : Reg) : (regBits r).toFin = r := rfl

/-- A field of five bits at `k`, given the word's bits there. -/
theorem extract5_eq {w : Word} {k : Nat} {x : BitVec 5} (h : ∀ i < 5, w.getLsbD (k + i) = x.getLsbD i) :
    w.extractLsb' k 5 = x := by
  ext i hi
  simpa [BitVec.getElem_extractLsb', BitVec.getLsbD_eq_getElem hi] using h i hi

@[simp] theorem opField_packRegs (op : BitVec 5) (ra rb rc : Reg) (c3 : BitVec 12) :
    opField (packRegs op ra rb rc c3) = op :=
  extract5_eq fun i hi => by
    rw [getLsbD_packRegs, if_neg (by omega), if_neg (by omega), if_neg (by omega), if_neg (by omega)]
    congr 1; omega

@[simp] theorem raField_packRegs (op : BitVec 5) (ra rb rc : Reg) (c3 : BitVec 12) :
    raField (packRegs op ra rb rc c3) = ra := by
  have h : (packRegs op ra rb rc c3).extractLsb' 22 5 = regBits ra := extract5_eq fun i hi => by
    rw [getLsbD_packRegs, if_neg (by omega), if_neg (by omega), if_neg (by omega), if_pos (by omega)]
    congr 1; omega
  rw [raField, h, toFin_regBits]

@[simp] theorem rbField_packRegs (op : BitVec 5) (ra rb rc : Reg) (c3 : BitVec 12) :
    rbField (packRegs op ra rb rc c3) = rb := by
  have h : (packRegs op ra rb rc c3).extractLsb' 17 5 = regBits rb := extract5_eq fun i hi => by
    rw [getLsbD_packRegs, if_neg (by omega), if_neg (by omega), if_pos (by omega)]
    congr 1; omega
  rw [rbField, h, toFin_regBits]

@[simp] theorem rcField_packRegs (op : BitVec 5) (ra rb rc : Reg) (c3 : BitVec 12) :
    rcField (packRegs op ra rb rc c3) = rc := by
  have h : (packRegs op ra rb rc c3).extractLsb' 12 5 = regBits rc := extract5_eq fun i hi => by
    rw [getLsbD_packRegs, if_neg (by omega), if_pos (by omega)]
    congr 1; omega
  rw [rcField, h, toFin_regBits]

@[simp] theorem c3Field_packRegs (op : BitVec 5) (ra rb rc : Reg) (c3 : BitVec 12) :
    c3Field (packRegs op ra rb rc c3) = c3 := by
  ext i hi
  simp [c3Field, getLsbD_packRegs, hi]

@[simp] theorem opField_packC2 (op : BitVec 5) (ra rb : Reg) (c2 : BitVec 17) :
    opField (packC2 op ra rb c2) = op :=
  extract5_eq fun i hi => by
    rw [getLsbD_packC2, if_neg (by omega), if_neg (by omega), if_neg (by omega)]
    congr 1; omega

@[simp] theorem raField_packC2 (op : BitVec 5) (ra rb : Reg) (c2 : BitVec 17) :
    raField (packC2 op ra rb c2) = ra := by
  have h : (packC2 op ra rb c2).extractLsb' 22 5 = regBits ra := extract5_eq fun i hi => by
    rw [getLsbD_packC2, if_neg (by omega), if_neg (by omega), if_pos (by omega)]
    congr 1; omega
  rw [raField, h, toFin_regBits]

@[simp] theorem rbField_packC2 (op : BitVec 5) (ra rb : Reg) (c2 : BitVec 17) :
    rbField (packC2 op ra rb c2) = rb := by
  have h : (packC2 op ra rb c2).extractLsb' 17 5 = regBits rb := extract5_eq fun i hi => by
    rw [getLsbD_packC2, if_neg (by omega), if_pos (by omega)]
    congr 1; omega
  rw [rbField, h, toFin_regBits]

@[simp] theorem c2Field_packC2 (op : BitVec 5) (ra rb : Reg) (c2 : BitVec 17) :
    c2Field (packC2 op ra rb c2) = c2 := by
  ext i hi
  simp [c2Field, getLsbD_packC2, hi]

@[simp] theorem opField_packC1 (op : BitVec 5) (ra : Reg) (c1 : BitVec 22) : opField (packC1 op ra c1) = op :=
  extract5_eq fun i hi => by
    rw [getLsbD_packC1, if_neg (by omega), if_neg (by omega)]
    congr 1; omega

@[simp] theorem raField_packC1 (op : BitVec 5) (ra : Reg) (c1 : BitVec 22) : raField (packC1 op ra c1) = ra := by
  have h : (packC1 op ra c1).extractLsb' 22 5 = regBits ra := extract5_eq fun i hi => by
    rw [getLsbD_packC1, if_neg (by omega), if_pos (by omega)]
    congr 1; omega
  rw [raField, h, toFin_regBits]

@[simp] theorem c1Field_packC1 (op : BitVec 5) (ra : Reg) (c1 : BitVec 22) : c1Field (packC1 op ra c1) = c1 := by
  ext i hi
  simp [c1Field, getLsbD_packC1, hi]

/-! ## Branch conditions and shift counts -/

@[simp] theorem Cond.ofBits_toBits (c : Cond) : Cond.ofBits c.toBits = c := by cases c <;> rfl

@[simp] theorem Cond.toBits_ofBits (b : BitVec 3) : (Cond.ofBits b).toBits = b := by revert b; decide

@[simp] theorem condField_packBranch (op : BitVec 5) (ra rb rc : Reg) (c : Cond) :
    condField (packBranch op ra rb rc c) = c.toBits := by
  cases c <;> simp [condField, packBranch, Cond.toBits]

@[simp] theorem countField_packShift (op : BitVec 5) (ra rb rc : Reg) (c3 : BitVec 5) :
    countField (packShift op ra rb rc c3) = c3 := by
  simp only [countField, packShift, c3Field_packRegs]
  revert c3; decide

@[simp] theorem opField_packBranch (op : BitVec 5) (ra rb rc : Reg) (c : Cond) :
    opField (packBranch op ra rb rc c) = op := opField_packRegs ..
@[simp] theorem raField_packBranch (op : BitVec 5) (ra rb rc : Reg) (c : Cond) :
    raField (packBranch op ra rb rc c) = ra := raField_packRegs ..
@[simp] theorem rbField_packBranch (op : BitVec 5) (ra rb rc : Reg) (c : Cond) :
    rbField (packBranch op ra rb rc c) = rb := rbField_packRegs ..
@[simp] theorem rcField_packBranch (op : BitVec 5) (ra rb rc : Reg) (c : Cond) :
    rcField (packBranch op ra rb rc c) = rc := rcField_packRegs ..
@[simp] theorem opField_packShift (op : BitVec 5) (ra rb rc : Reg) (c3 : BitVec 5) :
    opField (packShift op ra rb rc c3) = op := opField_packRegs ..
@[simp] theorem raField_packShift (op : BitVec 5) (ra rb rc : Reg) (c3 : BitVec 5) :
    raField (packShift op ra rb rc c3) = ra := raField_packRegs ..
@[simp] theorem rbField_packShift (op : BitVec 5) (ra rb rc : Reg) (c3 : BitVec 5) :
    rbField (packShift op ra rb rc c3) = rb := rbField_packRegs ..
@[simp] theorem rcField_packShift (op : BitVec 5) (ra rb rc : Reg) (c3 : BitVec 5) :
    rcField (packShift op ra rb rc c3) = rc := rcField_packRegs ..

/-! ## An encoded instruction as the number its fields make (R84) -/

theorem toNat_append_eq {m n : Nat} (x : BitVec m) (y : BitVec n) : (x ++ y).toNat = x.toNat * 2 ^ n + y.toNat := by
  rw [BitVec.toNat_append, ← Nat.shiftLeft_add_eq_or_of_lt y.isLt, Nat.shiftLeft_eq]

theorem toNat_regBits (r : Reg) : (regBits r).toNat = r.val := rfl

/-- A register form: `op << 27 | ra << 22 | rb << 17 | rc << 12 | c3`. -/
theorem toNat_packRegs (op : BitVec 5) (ra rb rc : Reg) (c3 : BitVec 12) :
    (packRegs op ra rb rc c3).toNat =
      op.toNat * 2 ^ 27 + ra.val * 2 ^ 22 + rb.val * 2 ^ 17 + rc.val * 2 ^ 12 + c3.toNat := by
  have h1 := toNat_append_eq (op ++ regBits ra ++ regBits rb ++ regBits rc) c3
  have h2 := toNat_append_eq (op ++ regBits ra ++ regBits rb) (regBits rc)
  have h3 := toNat_append_eq (op ++ regBits ra) (regBits rb)
  have h4 := toNat_append_eq op (regBits ra)
  rw [toNat_regBits] at h2 h3 h4
  refine h1.trans ?_
  rw [h2, h3, h4]
  omega

/-- A displacement or immediate form: `op << 27 | ra << 22 | rb << 17 | (c2 & 0x1FFFF)`. -/
theorem toNat_packC2 (op : BitVec 5) (ra rb : Reg) (c2 : BitVec 17) :
    (packC2 op ra rb c2).toNat = op.toNat * 2 ^ 27 + ra.val * 2 ^ 22 + rb.val * 2 ^ 17 + c2.toNat := by
  have h1 := toNat_append_eq (op ++ regBits ra ++ regBits rb) c2
  have h2 := toNat_append_eq (op ++ regBits ra) (regBits rb)
  have h3 := toNat_append_eq op (regBits ra)
  rw [toNat_regBits] at h2 h3
  refine h1.trans ?_
  rw [h2, h3]
  omega

/-- A relative form: `op << 27 | ra << 22 | (c1 & 0x3FFFFF)`. -/
theorem toNat_packC1 (op : BitVec 5) (ra : Reg) (c1 : BitVec 22) :
    (packC1 op ra c1).toNat = op.toNat * 2 ^ 27 + ra.val * 2 ^ 22 + c1.toNat := by
  have h1 := toNat_append_eq (op ++ regBits ra) c1
  have h2 := toNat_append_eq op (regBits ra)
  rw [toNat_regBits] at h2
  refine h1.trans ?_
  rw [h2]
  omega

theorem toNat_packBranch (op : BitVec 5) (ra rb rc : Reg) (c : Cond) :
    (packBranch op ra rb rc c).toNat =
      op.toNat * 2 ^ 27 + ra.val * 2 ^ 22 + rb.val * 2 ^ 17 + rc.val * 2 ^ 12 + c.toBits.toNat := by
  have h : ((0 : BitVec 9) ++ c.toBits).toNat = c.toBits.toNat := by cases c <;> rfl
  rw [packBranch, toNat_packRegs, h]

theorem toNat_packShift (op : BitVec 5) (ra rb rc : Reg) (c3 : BitVec 5) :
    (packShift op ra rb rc c3).toNat =
      op.toNat * 2 ^ 27 + ra.val * 2 ^ 22 + rb.val * 2 ^ 17 + rc.val * 2 ^ 12 + c3.toNat := by
  have h : ((0 : BitVec 7) ++ c3).toNat = c3.toNat := by revert c3; decide
  rw [packShift, toNat_packRegs, h]

/-- The word of a branch does not depend on the name it is written under (R112). -/
theorem encode_brOfCond (rb rc : Reg) (c : Cond) : encode (brOfCond rb rc c) = packBranch 8 0 rb rc c := by
  cases c <;> rfl

theorem encode_brlOfCond (ra rb rc : Reg) (c : Cond) : encode (brlOfCond ra rb rc c) = packBranch 9 ra rb rc c := by
  cases c <;> rfl

/-! ## Bytes and words -/

/-- The four bytes of a word, laid out most significant first, are the word again. -/
theorem wordOfBytes_extract (w : Word) :
    wordOfBytes (w.extractLsb' 24 8) (w.extractLsb' 16 8) (w.extractLsb' 8 8) (w.extractLsb' 0 8) = w := by
  refine BitVec.eq_of_getLsbD_eq fun i hi => ?_
  rw [wordOfBytes, getLsbD_bytes]
  by_cases h1 : i < 8
  · simp [h1]
  · by_cases h2 : i < 16
    · simp [h1, h2, show i - 8 < 8 by omega, show 8 + (i - 8) = i by omega]
    · by_cases h3 : i < 24
      · simp [h1, h2, h3, show i - 16 < 8 by omega, show 16 + (i - 16) = i by omega]
      · simp [h1, h2, h3, show i - 24 < 8 by omega, show 24 + (i - 24) = i by omega]

end Sys2Proof

namespace Sys2Proof.Machine

/-- The low half is replaced. -/
theorem lowHalf_withLowHalf (v : Word) (lo : BitVec 16) : lowHalf (withLowHalf v lo) = lo := by
  ext i hi
  simp [lowHalf, withLowHalf, getLsbD_halves, hi]

/-- The upper half is kept. -/
theorem upperHalf_withLowHalf (v : Word) (lo : BitVec 16) :
    (withLowHalf v lo).extractLsb' 16 16 = v.extractLsb' 16 16 := by
  ext i hi
  simp [withLowHalf, getLsbD_halves, hi]

/-- A word is its two halves. -/
theorem withLowHalf_lowHalf (v : Word) : withLowHalf v (lowHalf v) = v := by
  refine BitVec.eq_of_getLsbD_eq fun i hi => ?_
  rw [withLowHalf, getLsbD_halves]
  by_cases h : i < 16
  · simp [h, lowHalf]
  · simp [h, show i - 16 < 16 by omega, show 16 + (i - 16) = i by omega]

/-- A word read is the four bytes put together. -/
theorem readWord_eq (s : State) (a : Word) :
    s.readWord a = wordOfBytes (s.readByte a) (s.readByte (a + 1)) (s.readByte (a + 2)) (s.readByte (a + 3)) := rfl

end Sys2Proof.Machine
end

