-- ==== Sys2Proof/Laws/State.lean ====
section
/-! SUPPORT. What each named update of the state leaves in each field: one lemma per field per update. -/

namespace Sys2Proof.Machine.State

/-! ## `writeReg` -/

@[simp] theorem writeReg_regs (s : State) (r : Reg) (v : Word) : (s.writeReg r v).regs = s.regs.set r.val v := rfl
@[simp] theorem writeReg_pc (s : State) (r : Reg) (v : Word) : (s.writeReg r v).pc = s.pc := rfl
@[simp] theorem writeReg_ir (s : State) (r : Reg) (v : Word) : (s.writeReg r v).ir = s.ir := rfl
@[simp] theorem writeReg_run (s : State) (r : Reg) (v : Word) : (s.writeReg r v).run = s.run := rfl
@[simp] theorem writeReg_ie (s : State) (r : Reg) (v : Word) : (s.writeReg r v).ie = s.ie := rfl
@[simp] theorem writeReg_ipc (s : State) (r : Reg) (v : Word) : (s.writeReg r v).ipc = s.ipc := rfl
@[simp] theorem writeReg_ii (s : State) (r : Reg) (v : Word) : (s.writeReg r v).ii = s.ii := rfl
@[simp] theorem writeReg_mem (s : State) (r : Reg) (v : Word) : (s.writeReg r v).mem = s.mem := rfl
@[simp] theorem writeReg_strt (s : State) (r : Reg) (v : Word) : (s.writeReg r v).strt = s.strt := rfl
@[simp] theorem writeReg_rst (s : State) (r : Reg) (v : Word) : (s.writeReg r v).rst = s.rst := rfl
@[simp] theorem writeReg_ireq (s : State) (r : Reg) (v : Word) : (s.writeReg r v).ireq = s.ireq := rfl
@[simp] theorem writeReg_iack (s : State) (r : Reg) (v : Word) : (s.writeReg r v).iack = s.iack := rfl
@[simp] theorem writeReg_isrcInfo (s : State) (r : Reg) (v : Word) : (s.writeReg r v).isrcInfo = s.isrcInfo := rfl
@[simp] theorem writeReg_isrcVect (s : State) (r : Reg) (v : Word) : (s.writeReg r v).isrcVect = s.isrcVect := rfl
@[simp] theorem writeReg_env (s : State) (r : Reg) (v : Word) : (s.writeReg r v).env = s.env := rfl
@[simp] theorem writeReg_acks (s : State) (r : Reg) (v : Word) : (s.writeReg r v).acks = s.acks := rfl
@[simp] theorem writeReg_params (s : State) (r : Reg) (v : Word) : (s.writeReg r v).params = s.params := rfl
@[simp] theorem writeReg_readByte (s : State) (r : Reg) (v : Word) (x : Word) : (s.writeReg r v).readByte x = s.readByte x := rfl
@[simp] theorem writeReg_readWord (s : State) (r : Reg) (v : Word) (x : Word) : (s.writeReg r v).readWord x = s.readWord x := rfl

/-! ## `writeByte` -/

@[simp] theorem writeByte_regs (s : State) (a : Word) (b : Byte) : (s.writeByte a b).regs = s.regs := rfl
@[simp] theorem writeByte_pc (s : State) (a : Word) (b : Byte) : (s.writeByte a b).pc = s.pc := rfl
@[simp] theorem writeByte_ir (s : State) (a : Word) (b : Byte) : (s.writeByte a b).ir = s.ir := rfl
@[simp] theorem writeByte_run (s : State) (a : Word) (b : Byte) : (s.writeByte a b).run = s.run := rfl
@[simp] theorem writeByte_ie (s : State) (a : Word) (b : Byte) : (s.writeByte a b).ie = s.ie := rfl
@[simp] theorem writeByte_ipc (s : State) (a : Word) (b : Byte) : (s.writeByte a b).ipc = s.ipc := rfl
@[simp] theorem writeByte_ii (s : State) (a : Word) (b : Byte) : (s.writeByte a b).ii = s.ii := rfl
@[simp] theorem writeByte_mem (s : State) (a : Word) (b : Byte) : (s.writeByte a b).mem = s.mem.write a.toNat b := rfl
@[simp] theorem writeByte_strt (s : State) (a : Word) (b : Byte) : (s.writeByte a b).strt = s.strt := rfl
@[simp] theorem writeByte_rst (s : State) (a : Word) (b : Byte) : (s.writeByte a b).rst = s.rst := rfl
@[simp] theorem writeByte_ireq (s : State) (a : Word) (b : Byte) : (s.writeByte a b).ireq = s.ireq := rfl
@[simp] theorem writeByte_iack (s : State) (a : Word) (b : Byte) : (s.writeByte a b).iack = s.iack := rfl
@[simp] theorem writeByte_isrcInfo (s : State) (a : Word) (b : Byte) : (s.writeByte a b).isrcInfo = s.isrcInfo := rfl
@[simp] theorem writeByte_isrcVect (s : State) (a : Word) (b : Byte) : (s.writeByte a b).isrcVect = s.isrcVect := rfl
@[simp] theorem writeByte_env (s : State) (a : Word) (b : Byte) : (s.writeByte a b).env = s.env := rfl
@[simp] theorem writeByte_acks (s : State) (a : Word) (b : Byte) : (s.writeByte a b).acks = s.acks := rfl
@[simp] theorem writeByte_params (s : State) (a : Word) (b : Byte) : (s.writeByte a b).params = s.params := rfl
@[simp] theorem writeByte_readReg (s : State) (a : Word) (b : Byte) (q : Reg) : (s.writeByte a b).readReg q = s.readReg q := rfl

/-! ## `writeWord` -/

@[simp] theorem writeWord_regs (s : State) (a v : Word) : (s.writeWord a v).regs = s.regs := rfl
@[simp] theorem writeWord_pc (s : State) (a v : Word) : (s.writeWord a v).pc = s.pc := rfl
@[simp] theorem writeWord_ir (s : State) (a v : Word) : (s.writeWord a v).ir = s.ir := rfl
@[simp] theorem writeWord_run (s : State) (a v : Word) : (s.writeWord a v).run = s.run := rfl
@[simp] theorem writeWord_ie (s : State) (a v : Word) : (s.writeWord a v).ie = s.ie := rfl
@[simp] theorem writeWord_ipc (s : State) (a v : Word) : (s.writeWord a v).ipc = s.ipc := rfl
@[simp] theorem writeWord_ii (s : State) (a v : Word) : (s.writeWord a v).ii = s.ii := rfl
@[simp] theorem writeWord_strt (s : State) (a v : Word) : (s.writeWord a v).strt = s.strt := rfl
@[simp] theorem writeWord_rst (s : State) (a v : Word) : (s.writeWord a v).rst = s.rst := rfl
@[simp] theorem writeWord_ireq (s : State) (a v : Word) : (s.writeWord a v).ireq = s.ireq := rfl
@[simp] theorem writeWord_iack (s : State) (a v : Word) : (s.writeWord a v).iack = s.iack := rfl
@[simp] theorem writeWord_isrcInfo (s : State) (a v : Word) : (s.writeWord a v).isrcInfo = s.isrcInfo := rfl
@[simp] theorem writeWord_isrcVect (s : State) (a v : Word) : (s.writeWord a v).isrcVect = s.isrcVect := rfl
@[simp] theorem writeWord_env (s : State) (a v : Word) : (s.writeWord a v).env = s.env := rfl
@[simp] theorem writeWord_acks (s : State) (a v : Word) : (s.writeWord a v).acks = s.acks := rfl
@[simp] theorem writeWord_params (s : State) (a v : Word) : (s.writeWord a v).params = s.params := rfl
@[simp] theorem writeWord_readReg (s : State) (a v : Word) (q : Reg) : (s.writeWord a v).readReg q = s.readReg q := rfl

/-! ## `setPc` -/

@[simp] theorem setPc_regs (s : State) (t : Word) : (s.setPc t).regs = s.regs := rfl
@[simp] theorem setPc_pc (s : State) (t : Word) : (s.setPc t).pc = t := rfl
@[simp] theorem setPc_ir (s : State) (t : Word) : (s.setPc t).ir = s.ir := rfl
@[simp] theorem setPc_run (s : State) (t : Word) : (s.setPc t).run = s.run := rfl
@[simp] theorem setPc_ie (s : State) (t : Word) : (s.setPc t).ie = s.ie := rfl
@[simp] theorem setPc_ipc (s : State) (t : Word) : (s.setPc t).ipc = s.ipc := rfl
@[simp] theorem setPc_ii (s : State) (t : Word) : (s.setPc t).ii = s.ii := rfl
@[simp] theorem setPc_mem (s : State) (t : Word) : (s.setPc t).mem = s.mem := rfl
@[simp] theorem setPc_strt (s : State) (t : Word) : (s.setPc t).strt = s.strt := rfl
@[simp] theorem setPc_rst (s : State) (t : Word) : (s.setPc t).rst = s.rst := rfl
@[simp] theorem setPc_ireq (s : State) (t : Word) : (s.setPc t).ireq = s.ireq := rfl
@[simp] theorem setPc_iack (s : State) (t : Word) : (s.setPc t).iack = s.iack := rfl
@[simp] theorem setPc_isrcInfo (s : State) (t : Word) : (s.setPc t).isrcInfo = s.isrcInfo := rfl
@[simp] theorem setPc_isrcVect (s : State) (t : Word) : (s.setPc t).isrcVect = s.isrcVect := rfl
@[simp] theorem setPc_env (s : State) (t : Word) : (s.setPc t).env = s.env := rfl
@[simp] theorem setPc_acks (s : State) (t : Word) : (s.setPc t).acks = s.acks := rfl
@[simp] theorem setPc_params (s : State) (t : Word) : (s.setPc t).params = s.params := rfl
@[simp] theorem setPc_readReg (s : State) (t : Word) (q : Reg) : (s.setPc t).readReg q = s.readReg q := rfl
@[simp] theorem setPc_readByte (s : State) (t : Word) (x : Word) : (s.setPc t).readByte x = s.readByte x := rfl
@[simp] theorem setPc_readWord (s : State) (t : Word) (x : Word) : (s.setPc t).readWord x = s.readWord x := rfl

/-! ## `setIe` -/

@[simp] theorem setIe_regs (s : State) (b : Bool) : (s.setIe b).regs = s.regs := rfl
@[simp] theorem setIe_pc (s : State) (b : Bool) : (s.setIe b).pc = s.pc := rfl
@[simp] theorem setIe_ir (s : State) (b : Bool) : (s.setIe b).ir = s.ir := rfl
@[simp] theorem setIe_run (s : State) (b : Bool) : (s.setIe b).run = s.run := rfl
@[simp] theorem setIe_ie (s : State) (b : Bool) : (s.setIe b).ie = b := rfl
@[simp] theorem setIe_ipc (s : State) (b : Bool) : (s.setIe b).ipc = s.ipc := rfl
@[simp] theorem setIe_ii (s : State) (b : Bool) : (s.setIe b).ii = s.ii := rfl
@[simp] theorem setIe_mem (s : State) (b : Bool) : (s.setIe b).mem = s.mem := rfl
@[simp] theorem setIe_strt (s : State) (b : Bool) : (s.setIe b).strt = s.strt := rfl
@[simp] theorem setIe_rst (s : State) (b : Bool) : (s.setIe b).rst = s.rst := rfl
@[simp] theorem setIe_ireq (s : State) (b : Bool) : (s.setIe b).ireq = s.ireq := rfl
@[simp] theorem setIe_iack (s : State) (b : Bool) : (s.setIe b).iack = s.iack := rfl
@[simp] theorem setIe_isrcInfo (s : State) (b : Bool) : (s.setIe b).isrcInfo = s.isrcInfo := rfl
@[simp] theorem setIe_isrcVect (s : State) (b : Bool) : (s.setIe b).isrcVect = s.isrcVect := rfl
@[simp] theorem setIe_env (s : State) (b : Bool) : (s.setIe b).env = s.env := rfl
@[simp] theorem setIe_acks (s : State) (b : Bool) : (s.setIe b).acks = s.acks := rfl
@[simp] theorem setIe_params (s : State) (b : Bool) : (s.setIe b).params = s.params := rfl
@[simp] theorem setIe_readReg (s : State) (b : Bool) (q : Reg) : (s.setIe b).readReg q = s.readReg q := rfl
@[simp] theorem setIe_readByte (s : State) (b : Bool) (x : Word) : (s.setIe b).readByte x = s.readByte x := rfl
@[simp] theorem setIe_readWord (s : State) (b : Bool) (x : Word) : (s.setIe b).readWord x = s.readWord x := rfl

/-! ## `setRun` -/

@[simp] theorem setRun_regs (s : State) (b : Bool) : (s.setRun b).regs = s.regs := rfl
@[simp] theorem setRun_pc (s : State) (b : Bool) : (s.setRun b).pc = s.pc := rfl
@[simp] theorem setRun_ir (s : State) (b : Bool) : (s.setRun b).ir = s.ir := rfl
@[simp] theorem setRun_run (s : State) (b : Bool) : (s.setRun b).run = b := rfl
@[simp] theorem setRun_ie (s : State) (b : Bool) : (s.setRun b).ie = s.ie := rfl
@[simp] theorem setRun_ipc (s : State) (b : Bool) : (s.setRun b).ipc = s.ipc := rfl
@[simp] theorem setRun_ii (s : State) (b : Bool) : (s.setRun b).ii = s.ii := rfl
@[simp] theorem setRun_mem (s : State) (b : Bool) : (s.setRun b).mem = s.mem := rfl
@[simp] theorem setRun_strt (s : State) (b : Bool) : (s.setRun b).strt = s.strt := rfl
@[simp] theorem setRun_rst (s : State) (b : Bool) : (s.setRun b).rst = s.rst := rfl
@[simp] theorem setRun_ireq (s : State) (b : Bool) : (s.setRun b).ireq = s.ireq := rfl
@[simp] theorem setRun_iack (s : State) (b : Bool) : (s.setRun b).iack = s.iack := rfl
@[simp] theorem setRun_isrcInfo (s : State) (b : Bool) : (s.setRun b).isrcInfo = s.isrcInfo := rfl
@[simp] theorem setRun_isrcVect (s : State) (b : Bool) : (s.setRun b).isrcVect = s.isrcVect := rfl
@[simp] theorem setRun_env (s : State) (b : Bool) : (s.setRun b).env = s.env := rfl
@[simp] theorem setRun_acks (s : State) (b : Bool) : (s.setRun b).acks = s.acks := rfl
@[simp] theorem setRun_params (s : State) (b : Bool) : (s.setRun b).params = s.params := rfl
@[simp] theorem setRun_readReg (s : State) (b : Bool) (q : Reg) : (s.setRun b).readReg q = s.readReg q := rfl
@[simp] theorem setRun_readByte (s : State) (b : Bool) (x : Word) : (s.setRun b).readByte x = s.readByte x := rfl
@[simp] theorem setRun_readWord (s : State) (b : Bool) (x : Word) : (s.setRun b).readWord x = s.readWord x := rfl

/-! ## `setIpc` -/

@[simp] theorem setIpc_regs (s : State) (v : Word) : (s.setIpc v).regs = s.regs := rfl
@[simp] theorem setIpc_pc (s : State) (v : Word) : (s.setIpc v).pc = s.pc := rfl
@[simp] theorem setIpc_ir (s : State) (v : Word) : (s.setIpc v).ir = s.ir := rfl
@[simp] theorem setIpc_run (s : State) (v : Word) : (s.setIpc v).run = s.run := rfl
@[simp] theorem setIpc_ie (s : State) (v : Word) : (s.setIpc v).ie = s.ie := rfl
@[simp] theorem setIpc_ipc (s : State) (v : Word) : (s.setIpc v).ipc = v := rfl
@[simp] theorem setIpc_ii (s : State) (v : Word) : (s.setIpc v).ii = s.ii := rfl
@[simp] theorem setIpc_mem (s : State) (v : Word) : (s.setIpc v).mem = s.mem := rfl
@[simp] theorem setIpc_strt (s : State) (v : Word) : (s.setIpc v).strt = s.strt := rfl
@[simp] theorem setIpc_rst (s : State) (v : Word) : (s.setIpc v).rst = s.rst := rfl
@[simp] theorem setIpc_ireq (s : State) (v : Word) : (s.setIpc v).ireq = s.ireq := rfl
@[simp] theorem setIpc_iack (s : State) (v : Word) : (s.setIpc v).iack = s.iack := rfl
@[simp] theorem setIpc_isrcInfo (s : State) (v : Word) : (s.setIpc v).isrcInfo = s.isrcInfo := rfl
@[simp] theorem setIpc_isrcVect (s : State) (v : Word) : (s.setIpc v).isrcVect = s.isrcVect := rfl
@[simp] theorem setIpc_env (s : State) (v : Word) : (s.setIpc v).env = s.env := rfl
@[simp] theorem setIpc_acks (s : State) (v : Word) : (s.setIpc v).acks = s.acks := rfl
@[simp] theorem setIpc_params (s : State) (v : Word) : (s.setIpc v).params = s.params := rfl
@[simp] theorem setIpc_readReg (s : State) (v : Word) (q : Reg) : (s.setIpc v).readReg q = s.readReg q := rfl
@[simp] theorem setIpc_readByte (s : State) (v : Word) (x : Word) : (s.setIpc v).readByte x = s.readByte x := rfl
@[simp] theorem setIpc_readWord (s : State) (v : Word) (x : Word) : (s.setIpc v).readWord x = s.readWord x := rfl

/-! ## `setIiLow` -/

@[simp] theorem setIiLow_regs (s : State) (lo : BitVec 16) : (s.setIiLow lo).regs = s.regs := rfl
@[simp] theorem setIiLow_pc (s : State) (lo : BitVec 16) : (s.setIiLow lo).pc = s.pc := rfl
@[simp] theorem setIiLow_ir (s : State) (lo : BitVec 16) : (s.setIiLow lo).ir = s.ir := rfl
@[simp] theorem setIiLow_run (s : State) (lo : BitVec 16) : (s.setIiLow lo).run = s.run := rfl
@[simp] theorem setIiLow_ie (s : State) (lo : BitVec 16) : (s.setIiLow lo).ie = s.ie := rfl
@[simp] theorem setIiLow_ipc (s : State) (lo : BitVec 16) : (s.setIiLow lo).ipc = s.ipc := rfl
@[simp] theorem setIiLow_ii (s : State) (lo : BitVec 16) : (s.setIiLow lo).ii = withLowHalf s.ii lo := rfl
@[simp] theorem setIiLow_mem (s : State) (lo : BitVec 16) : (s.setIiLow lo).mem = s.mem := rfl
@[simp] theorem setIiLow_strt (s : State) (lo : BitVec 16) : (s.setIiLow lo).strt = s.strt := rfl
@[simp] theorem setIiLow_rst (s : State) (lo : BitVec 16) : (s.setIiLow lo).rst = s.rst := rfl
@[simp] theorem setIiLow_ireq (s : State) (lo : BitVec 16) : (s.setIiLow lo).ireq = s.ireq := rfl
@[simp] theorem setIiLow_iack (s : State) (lo : BitVec 16) : (s.setIiLow lo).iack = s.iack := rfl
@[simp] theorem setIiLow_isrcInfo (s : State) (lo : BitVec 16) : (s.setIiLow lo).isrcInfo = s.isrcInfo := rfl
@[simp] theorem setIiLow_isrcVect (s : State) (lo : BitVec 16) : (s.setIiLow lo).isrcVect = s.isrcVect := rfl
@[simp] theorem setIiLow_env (s : State) (lo : BitVec 16) : (s.setIiLow lo).env = s.env := rfl
@[simp] theorem setIiLow_acks (s : State) (lo : BitVec 16) : (s.setIiLow lo).acks = s.acks := rfl
@[simp] theorem setIiLow_params (s : State) (lo : BitVec 16) : (s.setIiLow lo).params = s.params := rfl
@[simp] theorem setIiLow_readReg (s : State) (lo : BitVec 16) (q : Reg) : (s.setIiLow lo).readReg q = s.readReg q := rfl
@[simp] theorem setIiLow_readByte (s : State) (lo : BitVec 16) (x : Word) : (s.setIiLow lo).readByte x = s.readByte x := rfl
@[simp] theorem setIiLow_readWord (s : State) (lo : BitVec 16) (x : Word) : (s.setIiLow lo).readWord x = s.readWord x := rfl

/-! ## `hardReset` -/

@[simp] theorem hardReset_regs (s : State) : s.hardReset.regs = Vector.replicate 32 0 := rfl
@[simp] theorem hardReset_pc (s : State) : s.hardReset.pc = 0 := rfl
@[simp] theorem hardReset_ir (s : State) : s.hardReset.ir = s.ir := rfl
@[simp] theorem hardReset_run (s : State) : s.hardReset.run = true := rfl
@[simp] theorem hardReset_ie (s : State) : s.hardReset.ie = s.ie := rfl
@[simp] theorem hardReset_ipc (s : State) : s.hardReset.ipc = s.ipc := rfl
@[simp] theorem hardReset_ii (s : State) : s.hardReset.ii = s.ii := rfl
@[simp] theorem hardReset_mem (s : State) : s.hardReset.mem = s.mem := rfl
@[simp] theorem hardReset_strt (s : State) : s.hardReset.strt = s.strt := rfl
@[simp] theorem hardReset_rst (s : State) : s.hardReset.rst = s.rst := rfl
@[simp] theorem hardReset_ireq (s : State) : s.hardReset.ireq = s.ireq := rfl
@[simp] theorem hardReset_iack (s : State) : s.hardReset.iack = s.iack := rfl
@[simp] theorem hardReset_isrcInfo (s : State) : s.hardReset.isrcInfo = s.isrcInfo := rfl
@[simp] theorem hardReset_isrcVect (s : State) : s.hardReset.isrcVect = s.isrcVect := rfl
@[simp] theorem hardReset_env (s : State) : s.hardReset.env = s.env := rfl
@[simp] theorem hardReset_acks (s : State) : s.hardReset.acks = s.acks := rfl
@[simp] theorem hardReset_params (s : State) : s.hardReset.params = s.params := rfl
@[simp] theorem hardReset_readByte (s : State) (x : Word) : s.hardReset.readByte x = s.readByte x := rfl
@[simp] theorem hardReset_readWord (s : State) (x : Word) : s.hardReset.readWord x = s.readWord x := rfl

/-! ## `softReset` -/

@[simp] theorem softReset_regs (s : State) : s.softReset.regs = s.regs := rfl
@[simp] theorem softReset_pc (s : State) : s.softReset.pc = 0 := rfl
@[simp] theorem softReset_ir (s : State) : s.softReset.ir = s.ir := rfl
@[simp] theorem softReset_run (s : State) : s.softReset.run = s.run := rfl
@[simp] theorem softReset_ie (s : State) : s.softReset.ie = false := rfl
@[simp] theorem softReset_ipc (s : State) : s.softReset.ipc = s.ipc := rfl
@[simp] theorem softReset_ii (s : State) : s.softReset.ii = s.ii := rfl
@[simp] theorem softReset_mem (s : State) : s.softReset.mem = s.mem := rfl
@[simp] theorem softReset_strt (s : State) : s.softReset.strt = s.strt := rfl
@[simp] theorem softReset_rst (s : State) : s.softReset.rst = false := rfl
@[simp] theorem softReset_ireq (s : State) : s.softReset.ireq = s.ireq := rfl
@[simp] theorem softReset_iack (s : State) : s.softReset.iack = s.iack := rfl
@[simp] theorem softReset_isrcInfo (s : State) : s.softReset.isrcInfo = s.isrcInfo := rfl
@[simp] theorem softReset_isrcVect (s : State) : s.softReset.isrcVect = s.isrcVect := rfl
@[simp] theorem softReset_env (s : State) : s.softReset.env = s.env := rfl
@[simp] theorem softReset_acks (s : State) : s.softReset.acks = s.acks := rfl
@[simp] theorem softReset_params (s : State) : s.softReset.params = s.params := rfl
@[simp] theorem softReset_readReg (s : State) (q : Reg) : s.softReset.readReg q = s.readReg q := rfl
@[simp] theorem softReset_readByte (s : State) (x : Word) : s.softReset.readByte x = s.readByte x := rfl
@[simp] theorem softReset_readWord (s : State) (x : Word) : s.softReset.readWord x = s.readWord x := rfl

/-! ## `dropIack` -/

@[simp] theorem dropIack_regs (s : State) : s.dropIack.regs = s.regs := rfl
@[simp] theorem dropIack_pc (s : State) : s.dropIack.pc = s.pc := rfl
@[simp] theorem dropIack_ir (s : State) : s.dropIack.ir = s.ir := rfl
@[simp] theorem dropIack_run (s : State) : s.dropIack.run = s.run := rfl
@[simp] theorem dropIack_ie (s : State) : s.dropIack.ie = s.ie := rfl
@[simp] theorem dropIack_ipc (s : State) : s.dropIack.ipc = s.ipc := rfl
@[simp] theorem dropIack_ii (s : State) : s.dropIack.ii = s.ii := rfl
@[simp] theorem dropIack_mem (s : State) : s.dropIack.mem = s.mem := rfl
@[simp] theorem dropIack_strt (s : State) : s.dropIack.strt = s.strt := rfl
@[simp] theorem dropIack_rst (s : State) : s.dropIack.rst = s.rst := rfl
@[simp] theorem dropIack_ireq (s : State) : s.dropIack.ireq = s.ireq := rfl
@[simp] theorem dropIack_iack (s : State) : s.dropIack.iack = false := rfl
@[simp] theorem dropIack_isrcInfo (s : State) : s.dropIack.isrcInfo = s.isrcInfo := rfl
@[simp] theorem dropIack_isrcVect (s : State) : s.dropIack.isrcVect = s.isrcVect := rfl
@[simp] theorem dropIack_env (s : State) : s.dropIack.env = s.env := rfl
@[simp] theorem dropIack_acks (s : State) : s.dropIack.acks = s.acks := rfl
@[simp] theorem dropIack_params (s : State) : s.dropIack.params = s.params := rfl
@[simp] theorem dropIack_readReg (s : State) (q : Reg) : s.dropIack.readReg q = s.readReg q := rfl
@[simp] theorem dropIack_readByte (s : State) (x : Word) : s.dropIack.readByte x = s.readByte x := rfl
@[simp] theorem dropIack_readWord (s : State) (x : Word) : s.dropIack.readWord x = s.readWord x := rfl

/-! ## `enterInterrupt` -/

@[simp] theorem enterInterrupt_regs (s : State) : s.enterInterrupt.regs = s.regs := rfl
@[simp] theorem enterInterrupt_pc (s : State) : s.enterInterrupt.pc = ivect s.isrcVect := rfl
@[simp] theorem enterInterrupt_ir (s : State) : s.enterInterrupt.ir = s.ir := rfl
@[simp] theorem enterInterrupt_run (s : State) : s.enterInterrupt.run = s.run := rfl
@[simp] theorem enterInterrupt_ie (s : State) : s.enterInterrupt.ie = false := rfl
@[simp] theorem enterInterrupt_ipc (s : State) : s.enterInterrupt.ipc = s.pc := rfl
@[simp] theorem enterInterrupt_ii (s : State) : s.enterInterrupt.ii = withLowHalf s.ii s.isrcInfo := rfl
@[simp] theorem enterInterrupt_mem (s : State) : s.enterInterrupt.mem = s.mem := rfl
@[simp] theorem enterInterrupt_strt (s : State) : s.enterInterrupt.strt = s.strt := rfl
@[simp] theorem enterInterrupt_rst (s : State) : s.enterInterrupt.rst = s.rst := rfl
@[simp] theorem enterInterrupt_ireq (s : State) : s.enterInterrupt.ireq = s.ireq := rfl
@[simp] theorem enterInterrupt_iack (s : State) : s.enterInterrupt.iack = false := rfl
@[simp] theorem enterInterrupt_isrcInfo (s : State) : s.enterInterrupt.isrcInfo = s.isrcInfo := rfl
@[simp] theorem enterInterrupt_isrcVect (s : State) : s.enterInterrupt.isrcVect = s.isrcVect := rfl
@[simp] theorem enterInterrupt_env (s : State) : s.enterInterrupt.env = s.env := rfl
@[simp] theorem enterInterrupt_acks (s : State) : s.enterInterrupt.acks = s.acks ++ [{ isrcVect := s.isrcVect, isrcInfo := s.isrcInfo }] := rfl
@[simp] theorem enterInterrupt_params (s : State) : s.enterInterrupt.params = s.params := rfl
@[simp] theorem enterInterrupt_readReg (s : State) (q : Reg) : s.enterInterrupt.readReg q = s.readReg q := rfl
@[simp] theorem enterInterrupt_readByte (s : State) (x : Word) : s.enterInterrupt.readByte x = s.readByte x := rfl
@[simp] theorem enterInterrupt_readWord (s : State) (x : Word) : s.enterInterrupt.readWord x = s.readWord x := rfl

/-! ## `returnFromInterrupt` -/

@[simp] theorem returnFromInterrupt_regs (s : State) : s.returnFromInterrupt.regs = s.regs := rfl
@[simp] theorem returnFromInterrupt_pc (s : State) : s.returnFromInterrupt.pc = s.ipc := rfl
@[simp] theorem returnFromInterrupt_ir (s : State) : s.returnFromInterrupt.ir = s.ir := rfl
@[simp] theorem returnFromInterrupt_run (s : State) : s.returnFromInterrupt.run = s.run := rfl
@[simp] theorem returnFromInterrupt_ie (s : State) : s.returnFromInterrupt.ie = true := rfl
@[simp] theorem returnFromInterrupt_ipc (s : State) : s.returnFromInterrupt.ipc = s.ipc := rfl
@[simp] theorem returnFromInterrupt_ii (s : State) : s.returnFromInterrupt.ii = s.ii := rfl
@[simp] theorem returnFromInterrupt_mem (s : State) : s.returnFromInterrupt.mem = s.mem := rfl
@[simp] theorem returnFromInterrupt_strt (s : State) : s.returnFromInterrupt.strt = s.strt := rfl
@[simp] theorem returnFromInterrupt_rst (s : State) : s.returnFromInterrupt.rst = s.rst := rfl
@[simp] theorem returnFromInterrupt_ireq (s : State) : s.returnFromInterrupt.ireq = s.ireq := rfl
@[simp] theorem returnFromInterrupt_iack (s : State) : s.returnFromInterrupt.iack = s.iack := rfl
@[simp] theorem returnFromInterrupt_isrcInfo (s : State) : s.returnFromInterrupt.isrcInfo = s.isrcInfo := rfl
@[simp] theorem returnFromInterrupt_isrcVect (s : State) : s.returnFromInterrupt.isrcVect = s.isrcVect := rfl
@[simp] theorem returnFromInterrupt_env (s : State) : s.returnFromInterrupt.env = s.env := rfl
@[simp] theorem returnFromInterrupt_acks (s : State) : s.returnFromInterrupt.acks = s.acks := rfl
@[simp] theorem returnFromInterrupt_params (s : State) : s.returnFromInterrupt.params = s.params := rfl
@[simp] theorem returnFromInterrupt_readReg (s : State) (q : Reg) : s.returnFromInterrupt.readReg q = s.readReg q := rfl
@[simp] theorem returnFromInterrupt_readByte (s : State) (x : Word) : s.returnFromInterrupt.readByte x = s.readByte x := rfl
@[simp] theorem returnFromInterrupt_readWord (s : State) (x : Word) : s.returnFromInterrupt.readWord x = s.readWord x := rfl

/-! ## `afterFetch` -/

@[simp] theorem afterFetch_regs (s : State) : s.afterFetch.regs = s.regs := rfl
@[simp] theorem afterFetch_pc (s : State) : s.afterFetch.pc = s.pc + 4 := rfl
@[simp] theorem afterFetch_ir (s : State) : s.afterFetch.ir = s.fetchWord := rfl
@[simp] theorem afterFetch_run (s : State) : s.afterFetch.run = s.run := rfl
@[simp] theorem afterFetch_ie (s : State) : s.afterFetch.ie = s.ie := rfl
@[simp] theorem afterFetch_ipc (s : State) : s.afterFetch.ipc = s.ipc := rfl
@[simp] theorem afterFetch_ii (s : State) : s.afterFetch.ii = s.ii := rfl
@[simp] theorem afterFetch_mem (s : State) : s.afterFetch.mem = s.mem := rfl
@[simp] theorem afterFetch_strt (s : State) : s.afterFetch.strt = s.strt := rfl
@[simp] theorem afterFetch_rst (s : State) : s.afterFetch.rst = s.rst := rfl
@[simp] theorem afterFetch_ireq (s : State) : s.afterFetch.ireq = s.ireq := rfl
@[simp] theorem afterFetch_iack (s : State) : s.afterFetch.iack = s.iack := rfl
@[simp] theorem afterFetch_isrcInfo (s : State) : s.afterFetch.isrcInfo = s.isrcInfo := rfl
@[simp] theorem afterFetch_isrcVect (s : State) : s.afterFetch.isrcVect = s.isrcVect := rfl
@[simp] theorem afterFetch_env (s : State) : s.afterFetch.env = s.env := rfl
@[simp] theorem afterFetch_acks (s : State) : s.afterFetch.acks = s.acks := rfl
@[simp] theorem afterFetch_params (s : State) : s.afterFetch.params = s.params := rfl
@[simp] theorem afterFetch_readReg (s : State) (q : Reg) : s.afterFetch.readReg q = s.readReg q := rfl
@[simp] theorem afterFetch_readByte (s : State) (x : Word) : s.afterFetch.readByte x = s.readByte x := rfl
@[simp] theorem afterFetch_readWord (s : State) (x : Word) : s.afterFetch.readWord x = s.readWord x := rfl

/-! ## Sampling the environment -/

/-- With no input listed the levels stay. -/
theorem sampleInputs_nil (s : State) (h : s.env = []) : s.sampleInputs = s := by
  simp [sampleInputs, h]

/-- With an input listed it is taken over and `Rst` can only be raised. -/
theorem sampleInputs_cons (s : State) (e : EnvInput) (rest : List EnvInput) (h : s.env = e :: rest) :
    s.sampleInputs =
      { s with
        env := rest, strt := e.strt, rst := s.rst || e.raiseRst, ireq := e.ireq, isrcInfo := e.isrcInfo,
        isrcVect := e.isrcVect } := by
  simp [sampleInputs, h]

@[simp] theorem sampleInputs_regs (s : State) : s.sampleInputs.regs = s.regs := by
  unfold sampleInputs; split <;> rfl
@[simp] theorem sampleInputs_pc (s : State) : s.sampleInputs.pc = s.pc := by
  unfold sampleInputs; split <;> rfl
@[simp] theorem sampleInputs_ir (s : State) : s.sampleInputs.ir = s.ir := by
  unfold sampleInputs; split <;> rfl
@[simp] theorem sampleInputs_run (s : State) : s.sampleInputs.run = s.run := by
  unfold sampleInputs; split <;> rfl
@[simp] theorem sampleInputs_ie (s : State) : s.sampleInputs.ie = s.ie := by
  unfold sampleInputs; split <;> rfl
@[simp] theorem sampleInputs_ipc (s : State) : s.sampleInputs.ipc = s.ipc := by
  unfold sampleInputs; split <;> rfl
@[simp] theorem sampleInputs_ii (s : State) : s.sampleInputs.ii = s.ii := by
  unfold sampleInputs; split <;> rfl
@[simp] theorem sampleInputs_mem (s : State) : s.sampleInputs.mem = s.mem := by
  unfold sampleInputs; split <;> rfl
@[simp] theorem sampleInputs_iack (s : State) : s.sampleInputs.iack = s.iack := by
  unfold sampleInputs; split <;> rfl
@[simp] theorem sampleInputs_acks (s : State) : s.sampleInputs.acks = s.acks := by
  unfold sampleInputs; split <;> rfl
@[simp] theorem sampleInputs_params (s : State) : s.sampleInputs.params = s.params := by
  unfold sampleInputs; split <;> rfl
@[simp] theorem sampleInputs_readReg (s : State) (q : Reg) : s.sampleInputs.readReg q = s.readReg q := by
  simp [readReg]
@[simp] theorem sampleInputs_readByte (s : State) (x : Word) : s.sampleInputs.readByte x = s.readByte x := by
  simp [readByte]
@[simp] theorem sampleInputs_readWord (s : State) (x : Word) : s.sampleInputs.readWord x = s.readWord x := by
  simp [readWord]
@[simp] theorem sampleInputs_fetchWord (s : State) : s.sampleInputs.fetchWord = s.fetchWord := by
  simp [fetchWord]

/-! ## A state is its fields -/

/-- Two states with equal fields are equal. -/
theorem eq_of_fields {s t : State} (hregs : s.regs = t.regs) (hpc : s.pc = t.pc) (hir : s.ir = t.ir)
    (hrun : s.run = t.run) (hie : s.ie = t.ie) (hipc : s.ipc = t.ipc) (hii : s.ii = t.ii) (hmem : s.mem = t.mem)
    (hstrt : s.strt = t.strt) (hrst : s.rst = t.rst) (hireq : s.ireq = t.ireq) (hiack : s.iack = t.iack)
    (hinfo : s.isrcInfo = t.isrcInfo) (hvect : s.isrcVect = t.isrcVect) (henv : s.env = t.env)
    (hacks : s.acks = t.acks) (hparams : s.params = t.params) : s = t := by
  cases s; cases t; simp_all

end Sys2Proof.Machine.State
end

