-- ==== Sys2Proof/Laws/Memory.lean ====
section
/-! SUPPORT. Memory: a read after a write, and that every memory operation keeps the canonical form. -/

namespace Sys2Proof.Machine

namespace Memory

theorem read_nil (a : Nat) : read [] a = Config.unlistedByte := rfl

theorem read_cons (k : Nat) (v : Byte) (m : Memory) (a : Nat) :
    read ((k, v) :: m) a = if k = a then v else read m a := rfl

/-! ## Reads after `erase` and `insert` -/

theorem erase_cons (k : Nat) (v : Byte) (m : Memory) (a : Nat) :
    erase ((k, v) :: m) a = if k = a then erase m a else (k, v) :: erase m a := by
  by_cases h : k = a <;> simp [erase, h]

theorem read_erase_same (m : Memory) (a : Nat) : read (erase m a) a = Config.unlistedByte := by
  induction m with
  | nil => rfl
  | cons c m ih =>
    obtain ⟨k, v⟩ := c
    by_cases h : k = a <;> simp [erase_cons, read_cons, h, ih]

theorem read_erase_other (m : Memory) {a b : Nat} (h : b ≠ a) : read (erase m a) b = read m b := by
  induction m with
  | nil => rfl
  | cons c m ih =>
    obtain ⟨k, v⟩ := c
    by_cases hk : k = a
    · have : k ≠ b := fun e => h (e ▸ hk)
      simp [erase_cons, read_cons, hk, ih, h.symm]
    · simp [erase_cons, read_cons, hk, ih]

theorem read_insert_other (m : Memory) {a b : Nat} (v : Byte) (h : b ≠ a) : read (insert m a v) b = read m b := by
  induction m with
  | nil => simp [insert, read_cons, h.symm]
  | cons c m ih =>
    obtain ⟨k, w⟩ := c
    by_cases hk : a < k <;> simp [insert, read_cons, hk, ih, h.symm]

/-- No entry of the list is at the address. -/
def Unlisted (m : Memory) (a : Nat) : Prop := ∀ c ∈ m, c.1 ≠ a

theorem unlisted_erase (m : Memory) (a : Nat) : Unlisted (erase m a) a := by
  intro c hc
  simpa [erase] using (List.mem_filter.mp hc).2

theorem read_insert_same (m : Memory) (a : Nat) (v : Byte) (h : Unlisted m a) : read (insert m a v) a = v := by
  induction m with
  | nil => simp [insert, read_cons]
  | cons c m ih =>
    obtain ⟨k, w⟩ := c
    have hk : k ≠ a := h (k, w) (by simp)
    have hm : Unlisted m a := fun c hc => h c (by simp [hc])
    by_cases hlt : a < k <;> simp [insert, read_cons, hlt, hk, ih hm]

/-! ## The two basic laws of `write` -/

/-- A read after a write to the same address gives the byte written. -/
theorem read_write_same (m : Memory) (a : Nat) (v : Byte) : read (write m a v) a = v := by
  unfold write
  split
  · next h => rw [read_erase_same, h]
  · exact read_insert_same _ _ _ (unlisted_erase m a)

/-- A write leaves every other address alone. -/
theorem read_write_other (m : Memory) {a b : Nat} (v : Byte) (h : b ≠ a) : read (write m a v) b = read m b := by
  unfold write
  split
  · exact read_erase_other m h
  · rw [read_insert_other _ v h, read_erase_other m h]

/-! ## The canonical form -/

theorem wfFrom_cons (lo k : Nat) (v : Byte) (m : Memory) :
    wfFrom lo ((k, v) :: m) = true ↔
      lo ≤ k ∧ k < 2 ^ 32 ∧ v ≠ Config.unlistedByte ∧ wfFrom (k + 1) m = true := by
  simp [wfFrom, and_assoc]

theorem wfFrom_mono {lo lo' : Nat} (h : lo' ≤ lo) {m : Memory} (hm : wfFrom lo m = true) : wfFrom lo' m = true := by
  cases m with
  | nil => rfl
  | cons c m =>
    obtain ⟨k, v⟩ := c
    rw [wfFrom_cons] at hm ⊢
    exact ⟨h.trans hm.1, hm.2⟩

theorem wfFrom_erase {lo : Nat} {m : Memory} (a : Nat) (hm : wfFrom lo m = true) : wfFrom lo (erase m a) = true := by
  induction m generalizing lo with
  | nil => rfl
  | cons c m ih =>
    obtain ⟨k, v⟩ := c
    rw [wfFrom_cons] at hm
    obtain ⟨h1, h2, h3, h4⟩ := hm
    rw [erase_cons]
    split
    · exact wfFrom_mono (by omega) (ih h4)
    · exact (wfFrom_cons ..).mpr ⟨h1, h2, h3, ih h4⟩

theorem wfFrom_insert {lo : Nat} {m : Memory} {a : Nat} {v : Byte} (hlo : lo ≤ a) (ha : a < 2 ^ 32)
    (hv : v ≠ Config.unlistedByte) (hu : Unlisted m a) (hm : wfFrom lo m = true) : wfFrom lo (insert m a v) = true := by
  induction m generalizing lo with
  | nil => exact (wfFrom_cons ..).mpr ⟨hlo, ha, hv, rfl⟩
  | cons c m ih =>
    obtain ⟨k, w⟩ := c
    rw [wfFrom_cons] at hm
    obtain ⟨h1, h2, h3, h4⟩ := hm
    have hk : k ≠ a := hu (k, w) (by simp)
    simp only [insert]
    split
    · exact (wfFrom_cons ..).mpr ⟨hlo, ha, hv, (wfFrom_cons ..).mpr ⟨by omega, h2, h3, h4⟩⟩
    · exact (wfFrom_cons ..).mpr ⟨h1, h2, h3, ih (by omega) (fun c hc => hu c (by simp [hc])) h4⟩

/-- A write inside the address space keeps the canonical form. -/
theorem wf_write {m : Memory} {a : Nat} (v : Byte) (ha : a < 2 ^ 32) (hm : m.wf = true) : (write m a v).wf = true := by
  unfold write
  split
  · exact wfFrom_erase a hm
  · next h => exact wfFrom_insert (Nat.zero_le a) ha h (unlisted_erase m a) (wfFrom_erase a hm)

theorem wf_nil : Memory.wf [] = true := rfl

end Memory

namespace State

/-! ## The state's own reads and writes -/

@[simp] theorem readByte_writeByte_same (s : State) (a : Word) (v : Byte) : (s.writeByte a v).readByte a = v :=
  Memory.read_write_same ..

theorem readByte_writeByte_other (s : State) {a b : Word} (v : Byte) (h : b ≠ a) :
    (s.writeByte a v).readByte b = s.readByte b :=
  Memory.read_write_other _ v fun e => h (BitVec.eq_of_toNat_eq e)

/-- `writeByte` keeps the canonical form. -/
theorem wf_writeByte {s : State} (a : Word) (v : Byte) (h : s.mem.wf = true) : (s.writeByte a v).mem.wf = true :=
  Memory.wf_write v a.isLt h

/-- `writeWord` keeps the canonical form. -/
theorem wf_writeWord {s : State} (a v : Word) (h : s.mem.wf = true) : (s.writeWord a v).mem.wf = true :=
  wf_writeByte _ _ (wf_writeByte _ _ (wf_writeByte _ _ (wf_writeByte _ _ h)))

/-- The state after reset has its memory in canonical form. -/
theorem wf_reset : State.reset.mem.wf = true := rfl

/-- A word write leaves every byte outside its four addresses alone. -/
theorem readByte_writeWord_other (s : State) {a b : Word} (v : Word)
    (h0 : b ≠ a) (h1 : b ≠ a + 1) (h2 : b ≠ a + 2) (h3 : b ≠ a + 3) :
    (s.writeWord a v).readByte b = s.readByte b := by
  unfold writeWord
  rw [readByte_writeByte_other _ _ h3, readByte_writeByte_other _ _ h2, readByte_writeByte_other _ _ h1,
    readByte_writeByte_other _ _ h0]

/-- The four bytes of a word are at four different addresses. -/
theorem word_addresses_ne (a : Word) :
    a ≠ a + 1 ∧ a ≠ a + 2 ∧ a ≠ a + 3 ∧ a + 1 ≠ a + 2 ∧ a + 1 ≠ a + 3 ∧ a + 2 ≠ a + 3 := by
  refine ⟨?_, ?_, ?_, ?_, ?_, ?_⟩ <;> bv_omega

theorem readByte_writeWord_0 (s : State) (a v : Word) : (s.writeWord a v).readByte a = v.extractLsb' 24 8 := by
  obtain ⟨h1, h2, h3, -, -, -⟩ := word_addresses_ne a
  unfold writeWord
  rw [readByte_writeByte_other _ _ h3, readByte_writeByte_other _ _ h2, readByte_writeByte_other _ _ h1,
    readByte_writeByte_same]

theorem readByte_writeWord_1 (s : State) (a v : Word) : (s.writeWord a v).readByte (a + 1) = v.extractLsb' 16 8 := by
  obtain ⟨-, -, -, h2, h3, -⟩ := word_addresses_ne a
  unfold writeWord
  rw [readByte_writeByte_other _ _ h3, readByte_writeByte_other _ _ h2, readByte_writeByte_same]

theorem readByte_writeWord_2 (s : State) (a v : Word) : (s.writeWord a v).readByte (a + 2) = v.extractLsb' 8 8 := by
  obtain ⟨-, -, -, -, -, h3⟩ := word_addresses_ne a
  unfold writeWord
  rw [readByte_writeByte_other _ _ h3, readByte_writeByte_same]

theorem readByte_writeWord_3 (s : State) (a v : Word) : (s.writeWord a v).readByte (a + 3) = v.extractLsb' 0 8 := by
  unfold writeWord
  rw [readByte_writeByte_same]

/-- A word read after a word write to the same address gives the word written, at every address (R54, R55). -/
@[simp] theorem readWord_writeWord_same (s : State) (a v : Word) : (s.writeWord a v).readWord a = v := by
  rw [readWord_eq, readByte_writeWord_0, readByte_writeWord_1, readByte_writeWord_2, readByte_writeWord_3,
    wordOfBytes_extract]

end State

end Sys2Proof.Machine
end

