-- ==== Sys2Proof/Laws/Registers.lean ====
section
/-! SUPPORT. The register file: a read after a write. -/

namespace Sys2Proof.Machine.State

@[simp] theorem readReg_writeReg_same (s : State) (r : Reg) (v : Word) : (s.writeReg r v).readReg r = v := by
  simp [readReg, writeReg]

theorem readReg_writeReg_other (s : State) {r q : Reg} (v : Word) (h : q ≠ r) :
    (s.writeReg r v).readReg q = s.readReg q := by
  have hn : r.val ≠ q.val := fun e => h (Fin.ext e.symm)
  simp [readReg, writeReg, hn]

theorem readReg_writeReg (s : State) (r q : Reg) (v : Word) :
    (s.writeReg r v).readReg q = if q = r then v else s.readReg q := by
  by_cases h : q = r
  · subst h; simp
  · simp [h, readReg_writeReg_other s v h]

/-- Every register is 0 after a hard reset. -/
@[simp] theorem hardReset_readReg (s : State) (q : Reg) : s.hardReset.readReg q = 0 := by
  simp [readReg, hardReset]

/-- Two register files that read alike are equal. -/
theorem regs_eq_of_readReg {s t : State} (h : ∀ q, s.readReg q = t.readReg q) : s.regs = t.regs := by
  refine Vector.ext fun i hi => ?_
  exact h ⟨i, hi⟩

/-- Writes to different registers commute. -/
theorem writeReg_comm (s : State) {r q : Reg} (v w : Word) (h : r ≠ q) :
    (s.writeReg r v).writeReg q w = (s.writeReg q w).writeReg r v := by
  have hr : ((s.writeReg r v).writeReg q w).regs = ((s.writeReg q w).writeReg r v).regs :=
    regs_eq_of_readReg fun x => by
      simp only [readReg_writeReg]
      by_cases hx : x = q
      · subst hx; simp [h.symm]
      · simp [hx]
  simpa [writeReg] using hr

end Sys2Proof.Machine.State
end

