-- ==== Sys2Proof/Laws/Exec.lean ====
section
/-! SUPPORT. What a branch, an instruction and a step can do, said once each: later proofs split on these cases and do
not unfold `exec` or `step`. -/

namespace Sys2Proof.Machine

/-! ## Operands and conditions -/

theorem disp_zero (s : State) (c2 : BitVec 17) : disp s 0 c2 = imm17 c2 := by simp [disp]

theorem disp_base (s : State) {rb : Reg} (h : rb ≠ 0) (c2 : BitVec 17) : disp s rb c2 = s.readReg rb + imm17 c2 := by
  simp [disp, h]

/-- A shift count is below 32 (R78). -/
theorem shiftCount_lt (s : State) (rc : Reg) (c3 : BitVec 5) : shiftCount s rc c3 < 32 := by
  unfold shiftCount
  split
  · exact ((s.readReg rc).extractLsb' 0 5).isLt
  · exact c3.isLt

theorem condValue_of_not_reserved {c : Cond} (h : c.isReserved = false) (v : Word) : ∃ b, condValue c v = some b := by
  cases c <;> simp_all [Cond.isReserved, condValue]

theorem branchTaken_of_not_reserved {c : Cond} (h : c.isReserved = false) (p : ReservedCond) (v : Word) :
    branchTaken p c v = condValue c v := by
  obtain ⟨b, hb⟩ := condValue_of_not_reserved h v
  simp [branchTaken, hb]

theorem branchTaken_of_reserved {c : Cond} (h : c.isReserved = true) (p : ReservedCond) (v : Word) :
    branchTaken p c v = if p = .never then some false else none := by
  cases c <;> cases p <;> simp_all [Cond.isReserved, branchTaken, condValue]

/-! ## The shared operations -/

/-- All `branch` can do. -/
theorem branch_cases (c : Cond) (rb rc : Reg) (s : State) :
    (branchTaken s.params.reservedCond c (s.readReg rc) = none ∧ branch c rb rc s = .refused .reservedCond) ∨
    (branchTaken s.params.reservedCond c (s.readReg rc) = some true ∧
      branch c rb rc s = .next (s.setPc (s.readReg rb))) ∨
    (branchTaken s.params.reservedCond c (s.readReg rc) = some false ∧ branch c rb rc s = .next s) := by
  unfold branch
  rcases branchTaken s.params.reservedCond c (s.readReg rc) with _ | _ | _ <;> simp

/-- All `branchLink` can do. -/
theorem branchLink_cases (c : Cond) (ra rb rc : Reg) (s : State) :
    (branchTaken s.params.reservedCond c (s.readReg rc) = none ∧ branchLink c ra rb rc s = .refused .reservedCond) ∨
    (branchTaken s.params.reservedCond c (s.readReg rc) = some true ∧
      branchLink c ra rb rc s = .next ((s.writeReg ra s.pc).setPc (s.readReg rb))) ∨
    (branchTaken s.params.reservedCond c (s.readReg rc) = some false ∧
      branchLink c ra rb rc s = .next (s.writeReg ra s.pc)) := by
  unfold branchLink
  rcases branchTaken s.params.reservedCond c (s.readReg rc) with _ | _ | _ <;> simp

theorem branch_next {c : Cond} {rb rc : Reg} {s t : State} (h : branch c rb rc s = .next t) :
    t = s.setPc (s.readReg rb) ∨ t = s := by
  rcases branch_cases c rb rc s with ⟨_, e⟩ | ⟨_, e⟩ | ⟨_, e⟩ <;> rw [e] at h <;> cases h
  · exact .inl rfl
  · exact .inr rfl

theorem branchLink_next {c : Cond} {ra rb rc : Reg} {s t : State} (h : branchLink c ra rb rc s = .next t) :
    t = (s.writeReg ra s.pc).setPc (s.readReg rb) ∨ t = s.writeReg ra s.pc := by
  rcases branchLink_cases c ra rb rc s with ⟨_, e⟩ | ⟨_, e⟩ | ⟨_, e⟩ <;> rw [e] at h <;> cases h
  · exact .inl rfl
  · exact .inr rfl

theorem reservedOpcode_next {s t : State} (h : reservedOpcode s = .next t) : t = s := by
  unfold reservedOpcode at h
  split at h <;> cases h
  rfl

/-! ## An instruction -/

/-- The changes of state an instruction can make. -/
inductive Effect (i : Instr) (s : State) : State → Prop where
  /-- Nothing beyond the fetch. -/
  | none : Effect i s s
  /-- One register of those it writes. -/
  | reg (ra : Reg) (v : Word) (h : ra ∈ i.writes) : Effect i s (s.writeReg ra v)
  /-- A word at the address it stores to. -/
  | store (a v : Word) (h : storeAddress s i = some a) : Effect i s (s.writeWord a v)
  /-- A taken branch. -/
  | jump (v : Word) (h : i.writesPc = true) : Effect i s (s.setPc v)
  /-- A taken branch with link. -/
  | link (ra : Reg) (v : Word) (h : ra ∈ i.writes) (hp : i.writesPc = true) : Effect i s ((s.writeReg ra s.pc).setPc v)
  | een (h : i = .een) : Effect i s (s.setIe true)
  | edi (h : i = .edi) : Effect i s (s.setIe false)
  | rfi (h : i = .rfi) : Effect i s s.returnFromInterrupt
  | svi (ra rb : Reg) (h : i = .svi ra rb) (hne : ra ≠ rb) :
    Effect i s ((s.writeRegLow ra (lowHalf s.ii)).writeReg rb s.ipc)
  | ri (ra rb : Reg) (h : i = .ri ra rb) : Effect i s ((s.setIiLow (lowHalf (s.readReg ra))).setIpc (s.readReg rb))
  | stop (h : i = .stop) : Effect i s (s.setRun false)

theorem effect_of_branch {i : Instr} {c : Cond} {rb rc : Reg} {s t : State} (hp : i.writesPc = true)
    (h : branch c rb rc s = .next t) : Effect i s t := by
  rcases branch_next h with rfl | rfl
  · exact .jump _ hp
  · exact .none

theorem effect_of_branchLink {i : Instr} {c : Cond} {ra rb rc : Reg} {s t : State} (hw : ra ∈ i.writes)
    (hp : i.writesPc = true) (h : branchLink c ra rb rc s = .next t) : Effect i s t := by
  rcases branchLink_next h with rfl | rfl
  · exact .link ra _ hw hp
  · exact .reg ra _ hw

theorem effect_of_reservedOpcode {i : Instr} {s t : State} (h : reservedOpcode s = .next t) : Effect i s t := by
  cases reservedOpcode_next h
  exact .none

/-- If an instruction answers a next state, it is one of the changes of `Effect`. -/
theorem exec_effect {i : Instr} {s t : State} (h : exec i s = .next t) : Effect i s t := by
  cases i with
  | nop => cases h; exact .none
  | ld ra rb c2 => cases h; exact .reg ra _ (by simp [Instr.writes])
  | ldr ra c1 => cases h; exact .reg ra _ (by simp [Instr.writes])
  | st ra rb c2 => cases h; exact .store _ _ rfl
  | str ra c1 => cases h; exact .store _ _ rfl
  | la ra rb c2 => cases h; exact .reg ra _ (by simp [Instr.writes])
  | lar ra c1 => cases h; exact .reg ra _ (by simp [Instr.writes])
  | br rb rc c => exact effect_of_branch rfl h
  | brl ra rb rc c => exact effect_of_branchLink (by simp [Instr.writes]) rfl h
  | een => cases h; exact .een rfl
  | edi => cases h; exact .edi rfl
  | add ra rb rc => cases h; exact .reg ra _ (by simp [Instr.writes])
  | addi ra rb c2 => cases h; exact .reg ra _ (by simp [Instr.writes])
  | sub ra rb rc => cases h; exact .reg ra _ (by simp [Instr.writes])
  | neg ra rc => cases h; exact .reg ra _ (by simp [Instr.writes])
  | svi ra rb =>
    simp only [exec, execSvi] at h
    split at h
    · cases h
    · next hne => cases h; exact .svi ra rb rfl hne
  | ri ra rb => cases h; exact .ri ra rb rfl
  | and ra rb rc => cases h; exact .reg ra _ (by simp [Instr.writes])
  | andi ra rb c2 => cases h; exact .reg ra _ (by simp [Instr.writes])
  | or ra rb rc => cases h; exact .reg ra _ (by simp [Instr.writes])
  | ori ra rb c2 => cases h; exact .reg ra _ (by simp [Instr.writes])
  | not ra rc => cases h; exact .reg ra _ (by simp [Instr.writes])
  | shr ra rb rc c3 => cases h; exact .reg ra _ (by simp [Instr.writes])
  | shra ra rb rc c3 => cases h; exact .reg ra _ (by simp [Instr.writes])
  | shl ra rb rc c3 => cases h; exact .reg ra _ (by simp [Instr.writes])
  | shc ra rb rc c3 => cases h; exact .reg ra _ (by simp [Instr.writes])
  | rfi => cases h; exact .rfi rfl
  | stop => cases h; exact .stop rfl
  | reservedOp7 => exact effect_of_reservedOpcode h
  | reservedOp18 => exact effect_of_reservedOpcode h
  | reservedOp19 => exact effect_of_reservedOpcode h
  | reservedOp25 => exact effect_of_reservedOpcode h
  | brAlways rb rc => exact effect_of_branch (c := .always) (rb := rb) (rc := rc) rfl h
  | brzr rb rc => exact effect_of_branch (c := .zero) (rb := rb) (rc := rc) rfl h
  | brnz rb rc => exact effect_of_branch (c := .nonzero) (rb := rb) (rc := rc) rfl h
  | brpl rb rc => exact effect_of_branch (c := .plus) (rb := rb) (rc := rc) rfl h
  | brmi rb rc => exact effect_of_branch (c := .minus) (rb := rb) (rc := rc) rfl h
  | brlAlways ra rb rc =>
    exact effect_of_branchLink (c := .always) (ra := ra) (rb := rb) (rc := rc) (by simp [Instr.writes]) rfl h
  | brlnv ra rb rc =>
    exact effect_of_branchLink (c := .never) (ra := ra) (rb := rb) (rc := rc) (by simp [Instr.writes]) rfl h
  | brlzr ra rb rc =>
    exact effect_of_branchLink (c := .zero) (ra := ra) (rb := rb) (rc := rc) (by simp [Instr.writes]) rfl h
  | brlnz ra rb rc =>
    exact effect_of_branchLink (c := .nonzero) (ra := ra) (rb := rb) (rc := rc) (by simp [Instr.writes]) rfl h
  | brlpl ra rb rc =>
    exact effect_of_branchLink (c := .plus) (ra := ra) (rb := rb) (rc := rc) (by simp [Instr.writes]) rfl h
  | brlmi ra rb rc =>
    exact effect_of_branchLink (c := .minus) (ra := ra) (rb := rb) (rc := rc) (by simp [Instr.writes]) rfl h

/-! ## Frames: the fields a named update keeps, packed as the statements use them -/

theorem keepsSignals_refl (s : State) : KeepsSignals s s := ⟨rfl, rfl, rfl, rfl, rfl, rfl, rfl, rfl, rfl⟩

/-- A register write changes that register only. -/
theorem onlyRegs_writeReg (s : State) (ra : Reg) (v : Word) : OnlyRegs [ra] s (s.writeReg ra v) :=
  ⟨fun _ hr => State.readReg_writeReg_other s v (by simpa using hr), rfl, fun _ => rfl, ⟨rfl, rfl, rfl⟩, ⟨rfl, rfl⟩,
    keepsSignals_refl s⟩

/-- A word write changes the bytes of that word only. -/
theorem onlyWordAt_writeWord (s : State) (a v : Word) : OnlyWordAt a s (s.writeWord a v) := by
  refine ⟨fun b hb => ?_, fun r _ => by simp, by simp, by simp [KeepsInterruptState], by simp [KeepsRunAndIr],
    by simp [KeepsSignals]⟩
  simp only [wordAddresses, List.mem_cons, List.not_mem_nil, or_false, not_or] at hb
  exact State.readByte_writeWord_other s v hb.1 hb.2.1 hb.2.2.1 hb.2.2.2

/-! ## A step -/

/-- The guards of the five cases (R176). -/
theorem arm_eq_hardReset {s : State} : s.arm = .hardReset ↔ s.run = false ∧ s.strt = true := by
  unfold State.arm
  cases s.run <;> cases s.strt <;> cases s.rst <;> cases s.ireq <;> cases s.ie <;> decide

theorem arm_eq_softReset {s : State} : s.arm = .softReset ↔ s.run = true ∧ s.rst = true := by
  unfold State.arm
  cases s.run <;> cases s.strt <;> cases s.rst <;> cases s.ireq <;> cases s.ie <;> decide

theorem arm_eq_interruptEntry {s : State} :
    s.arm = .interruptEntry ↔ s.run = true ∧ s.rst = false ∧ s.ireq = true ∧ s.ie = true := by
  unfold State.arm
  cases s.run <;> cases s.strt <;> cases s.rst <;> cases s.ireq <;> cases s.ie <;> decide

theorem arm_eq_normalFetch {s : State} :
    s.arm = .normalFetch ↔ s.run = true ∧ s.rst = false ∧ ¬(s.ireq = true ∧ s.ie = true) := by
  unfold State.arm
  cases s.run <;> cases s.strt <;> cases s.rst <;> cases s.ireq <;> cases s.ie <;> decide

theorem arm_eq_halted {s : State} : s.arm = .halted ↔ s.run = false ∧ s.strt = false := by
  unfold State.arm
  cases s.run <;> cases s.strt <;> cases s.rst <;> cases s.ireq <;> cases s.ie <;> decide

theorem step_of_hardReset {s : State} (h : s.sampleInputs.arm = .hardReset) :
    step s = .next s.sampleInputs.hardReset := by simp [step, h]

theorem step_of_softReset {s : State} (h : s.sampleInputs.arm = .softReset) :
    step s = .next s.sampleInputs.softReset := by simp [step, h]

theorem step_of_interruptEntry {s : State} (h : s.sampleInputs.arm = .interruptEntry) :
    step s = .next s.sampleInputs.enterInterrupt := by simp [step, h]

theorem step_of_normalFetch {s : State} (h : s.sampleInputs.arm = .normalFetch) :
    step s = exec (decodeWord s.fetchWord) s.sampleInputs.afterFetch := by simp [step, h]

theorem step_of_halted {s : State} (h : s.sampleInputs.arm = .halted) : step s = .fault .halted := by simp [step, h]

/-- All a step that answers a next state can have done. -/
theorem step_cases {s t : State} (h : step s = .next t) :
    (s.sampleInputs.arm = .hardReset ∧ t = s.sampleInputs.hardReset) ∨
    (s.sampleInputs.arm = .softReset ∧ t = s.sampleInputs.softReset) ∨
    (s.sampleInputs.arm = .interruptEntry ∧ t = s.sampleInputs.enterInterrupt) ∨
    (s.sampleInputs.arm = .normalFetch ∧ Effect (decodeWord s.fetchWord) s.sampleInputs.afterFetch t) := by
  cases ha : s.sampleInputs.arm with
  | hardReset => rw [step_of_hardReset ha] at h; cases h; simp
  | softReset => rw [step_of_softReset ha] at h; cases h; simp
  | interruptEntry => rw [step_of_interruptEntry ha] at h; cases h; simp
  | normalFetch => rw [step_of_normalFetch ha] at h; simp [exec_effect h]
  | halted => rw [step_of_halted ha] at h; cases h

end Sys2Proof.Machine
end

