-- ==== Sys2Proof/Laws/PerInstr.lean ====
section
/-! SUPPORT. Statements about every instruction as syntax, one lemma per constructor. -/

namespace Sys2Proof.Laws.EncodesRow

/-- What the opcode table's row for an instruction fixes, as the fields `op` and `c3〈2..0〉` hold it (R80, R112): the
operation code, and the condition where the row has one. -/
def row : Instr → Nat × Option (BitVec 3)
  | .nop => (0, none)
  | .ld .. => (1, none)
  | .ldr .. => (2, none)
  | .st .. => (3, none)
  | .str .. => (4, none)
  | .la .. => (5, none)
  | .lar .. => (6, none)
  | .br .. => (8, none)
  | .brl .. => (9, none)
  | .een => (10, none)
  | .edi => (11, none)
  | .add .. => (12, none)
  | .addi .. => (13, none)
  | .sub .. => (14, none)
  | .neg .. => (15, none)
  | .svi .. => (16, none)
  | .ri .. => (17, none)
  | .and .. => (20, none)
  | .andi .. => (21, none)
  | .or .. => (22, none)
  | .ori .. => (23, none)
  | .not .. => (24, none)
  | .shr .. => (26, none)
  | .shra .. => (27, none)
  | .shl .. => (28, none)
  | .shc .. => (29, none)
  | .rfi => (30, none)
  | .stop => (31, none)
  | .reservedOp7 => (7, none)
  | .reservedOp18 => (18, none)
  | .reservedOp19 => (19, none)
  | .reservedOp25 => (25, none)
  | .brAlways .. => (8, some 1)
  | .brzr .. => (8, some 2)
  | .brnz .. => (8, some 3)
  | .brpl .. => (8, some 4)
  | .brmi .. => (8, some 5)
  | .brlAlways .. => (9, some 1)
  | .brlnv .. => (9, some 0)
  | .brlzr .. => (9, some 2)
  | .brlnz .. => (9, some 3)
  | .brlpl .. => (9, some 4)
  | .brlmi .. => (9, some 5)

/-- The encoded word has the row's operation code, and the row's condition where it fixes one. -/
def Statement (i : Instr) : Prop :=
  (opField (encode i)).toNat = (row i).1 ∧ ∀ b, (row i).2 = some b → condField (encode i) = b

theorem nop : Statement .nop :=
  ⟨congrArg BitVec.toNat (opField_packRegs ..), fun _ h => nomatch h⟩
theorem ld (ra rb : Reg) (c2 : BitVec 17) : Statement (.ld ra rb c2) :=
  ⟨congrArg BitVec.toNat (opField_packC2 ..), fun _ h => nomatch h⟩
theorem ldr (ra : Reg) (c1 : BitVec 22) : Statement (.ldr ra c1) :=
  ⟨congrArg BitVec.toNat (opField_packC1 ..), fun _ h => nomatch h⟩
theorem st (ra rb : Reg) (c2 : BitVec 17) : Statement (.st ra rb c2) :=
  ⟨congrArg BitVec.toNat (opField_packC2 ..), fun _ h => nomatch h⟩
theorem str (ra : Reg) (c1 : BitVec 22) : Statement (.str ra c1) :=
  ⟨congrArg BitVec.toNat (opField_packC1 ..), fun _ h => nomatch h⟩
theorem la (ra rb : Reg) (c2 : BitVec 17) : Statement (.la ra rb c2) :=
  ⟨congrArg BitVec.toNat (opField_packC2 ..), fun _ h => nomatch h⟩
theorem lar (ra : Reg) (c1 : BitVec 22) : Statement (.lar ra c1) :=
  ⟨congrArg BitVec.toNat (opField_packC1 ..), fun _ h => nomatch h⟩
theorem br (rb rc : Reg) (cond : Cond) : Statement (.br rb rc cond) :=
  ⟨congrArg BitVec.toNat (opField_packBranch ..), fun _ h => nomatch h⟩
theorem brl (ra rb rc : Reg) (cond : Cond) : Statement (.brl ra rb rc cond) :=
  ⟨congrArg BitVec.toNat (opField_packBranch ..), fun _ h => nomatch h⟩
theorem een : Statement .een :=
  ⟨congrArg BitVec.toNat (opField_packRegs ..), fun _ h => nomatch h⟩
theorem edi : Statement .edi :=
  ⟨congrArg BitVec.toNat (opField_packRegs ..), fun _ h => nomatch h⟩
theorem add (ra rb rc : Reg) : Statement (.add ra rb rc) :=
  ⟨congrArg BitVec.toNat (opField_packRegs ..), fun _ h => nomatch h⟩
theorem addi (ra rb : Reg) (c2 : BitVec 17) : Statement (.addi ra rb c2) :=
  ⟨congrArg BitVec.toNat (opField_packC2 ..), fun _ h => nomatch h⟩
theorem sub (ra rb rc : Reg) : Statement (.sub ra rb rc) :=
  ⟨congrArg BitVec.toNat (opField_packRegs ..), fun _ h => nomatch h⟩
theorem neg (ra rc : Reg) : Statement (.neg ra rc) :=
  ⟨congrArg BitVec.toNat (opField_packRegs ..), fun _ h => nomatch h⟩
theorem svi (ra rb : Reg) : Statement (.svi ra rb) :=
  ⟨congrArg BitVec.toNat (opField_packRegs ..), fun _ h => nomatch h⟩
theorem ri (ra rb : Reg) : Statement (.ri ra rb) :=
  ⟨congrArg BitVec.toNat (opField_packRegs ..), fun _ h => nomatch h⟩
theorem and (ra rb rc : Reg) : Statement (.and ra rb rc) :=
  ⟨congrArg BitVec.toNat (opField_packRegs ..), fun _ h => nomatch h⟩
theorem andi (ra rb : Reg) (c2 : BitVec 17) : Statement (.andi ra rb c2) :=
  ⟨congrArg BitVec.toNat (opField_packC2 ..), fun _ h => nomatch h⟩
theorem or (ra rb rc : Reg) : Statement (.or ra rb rc) :=
  ⟨congrArg BitVec.toNat (opField_packRegs ..), fun _ h => nomatch h⟩
theorem ori (ra rb : Reg) (c2 : BitVec 17) : Statement (.ori ra rb c2) :=
  ⟨congrArg BitVec.toNat (opField_packC2 ..), fun _ h => nomatch h⟩
theorem not (ra rc : Reg) : Statement (.not ra rc) :=
  ⟨congrArg BitVec.toNat (opField_packRegs ..), fun _ h => nomatch h⟩
theorem shr (ra rb rc : Reg) (c3 : BitVec 5) : Statement (.shr ra rb rc c3) :=
  ⟨congrArg BitVec.toNat (opField_packShift ..), fun _ h => nomatch h⟩
theorem shra (ra rb rc : Reg) (c3 : BitVec 5) : Statement (.shra ra rb rc c3) :=
  ⟨congrArg BitVec.toNat (opField_packShift ..), fun _ h => nomatch h⟩
theorem shl (ra rb rc : Reg) (c3 : BitVec 5) : Statement (.shl ra rb rc c3) :=
  ⟨congrArg BitVec.toNat (opField_packShift ..), fun _ h => nomatch h⟩
theorem shc (ra rb rc : Reg) (c3 : BitVec 5) : Statement (.shc ra rb rc c3) :=
  ⟨congrArg BitVec.toNat (opField_packShift ..), fun _ h => nomatch h⟩
theorem rfi : Statement .rfi :=
  ⟨congrArg BitVec.toNat (opField_packRegs ..), fun _ h => nomatch h⟩
theorem stop : Statement .stop :=
  ⟨congrArg BitVec.toNat (opField_packRegs ..), fun _ h => nomatch h⟩
theorem reservedOp7 : Statement .reservedOp7 :=
  ⟨congrArg BitVec.toNat (opField_packRegs ..), fun _ h => nomatch h⟩
theorem reservedOp18 : Statement .reservedOp18 :=
  ⟨congrArg BitVec.toNat (opField_packRegs ..), fun _ h => nomatch h⟩
theorem reservedOp19 : Statement .reservedOp19 :=
  ⟨congrArg BitVec.toNat (opField_packRegs ..), fun _ h => nomatch h⟩
theorem reservedOp25 : Statement .reservedOp25 :=
  ⟨congrArg BitVec.toNat (opField_packRegs ..), fun _ h => nomatch h⟩
theorem brAlways (rb rc : Reg) : Statement (.brAlways rb rc) :=
  ⟨congrArg BitVec.toNat (opField_packBranch ..), fun _ h => (condField_packBranch ..).trans (Option.some.inj h)⟩
theorem brzr (rb rc : Reg) : Statement (.brzr rb rc) :=
  ⟨congrArg BitVec.toNat (opField_packBranch ..), fun _ h => (condField_packBranch ..).trans (Option.some.inj h)⟩
theorem brnz (rb rc : Reg) : Statement (.brnz rb rc) :=
  ⟨congrArg BitVec.toNat (opField_packBranch ..), fun _ h => (condField_packBranch ..).trans (Option.some.inj h)⟩
theorem brpl (rb rc : Reg) : Statement (.brpl rb rc) :=
  ⟨congrArg BitVec.toNat (opField_packBranch ..), fun _ h => (condField_packBranch ..).trans (Option.some.inj h)⟩
theorem brmi (rb rc : Reg) : Statement (.brmi rb rc) :=
  ⟨congrArg BitVec.toNat (opField_packBranch ..), fun _ h => (condField_packBranch ..).trans (Option.some.inj h)⟩
theorem brlAlways (ra rb rc : Reg) : Statement (.brlAlways ra rb rc) :=
  ⟨congrArg BitVec.toNat (opField_packBranch ..), fun _ h => (condField_packBranch ..).trans (Option.some.inj h)⟩
theorem brlnv (ra rb rc : Reg) : Statement (.brlnv ra rb rc) :=
  ⟨congrArg BitVec.toNat (opField_packBranch ..), fun _ h => (condField_packBranch ..).trans (Option.some.inj h)⟩
theorem brlzr (ra rb rc : Reg) : Statement (.brlzr ra rb rc) :=
  ⟨congrArg BitVec.toNat (opField_packBranch ..), fun _ h => (condField_packBranch ..).trans (Option.some.inj h)⟩
theorem brlnz (ra rb rc : Reg) : Statement (.brlnz ra rb rc) :=
  ⟨congrArg BitVec.toNat (opField_packBranch ..), fun _ h => (condField_packBranch ..).trans (Option.some.inj h)⟩
theorem brlpl (ra rb rc : Reg) : Statement (.brlpl ra rb rc) :=
  ⟨congrArg BitVec.toNat (opField_packBranch ..), fun _ h => (condField_packBranch ..).trans (Option.some.inj h)⟩
theorem brlmi (ra rb rc : Reg) : Statement (.brlmi ra rb rc) :=
  ⟨congrArg BitVec.toNat (opField_packBranch ..), fun _ h => (condField_packBranch ..).trans (Option.some.inj h)⟩

end Sys2Proof.Laws.EncodesRow
end

