-- ==== Sys2Proof/Tests/Slice0.lean ====
section
/-! SUPPORT. Small tests of one step each, and a witness for every statement with hypotheses. Expected values come from
spec/: the derived vectors of 95_test_vectors.md (section in the comment), the examples of the instruction rules, and the
encodings of 30_encoding.md. -/

namespace Sys2Proof.Tests

open Sys2Proof Sys2Proof.Machine

/-- The start state of 95_test_vectors.md: running, no request, `pc` = 0x1000 with the word under test there. -/
def start (w : Word) (regs : List (Reg × Word)) : State :=
  let s := (State.reset.setPc 0x1000).writeWord 0x1000 w
  regs.foldl (fun s c => s.writeReg c.1 c.2) s

/-- Whether an outcome is a next state with a property. -/
def answers (o : Host.Outcome State Fault Refusal) (p : State → Bool) : Bool :=
  match o with
  | .next t => p t
  | .fault _ => false
  | .refused _ => false

/-- Whether an outcome is a given refusal. -/
def refusedAs (o : Host.Outcome State Fault Refusal) (r : Refusal) : Bool :=
  match o with
  | .refused q => q == r
  | .next _ => false
  | .fault _ => false

/-- Whether an outcome is the fault of a halted machine. -/
def haltedFault (o : Host.Outcome State Fault Refusal) : Bool :=
  match o with
  | .fault .halted => true
  | .next _ => false
  | .refused _ => false

/-- One step from the start state with a register and `pc` as expected after it. -/
def stepGives (s : State) (r : Reg) (v pc : Word) : Bool := answers (step s) fun t => t.readReg r == v && t.pc == pc

/-! ## WellFormed: an ill-formed term for each check -/

theorem test_wellFormed_br_named : (Instr.br 4 5 .zero).wellFormed = false := by decide
theorem test_wellFormed_brl_named : (Instr.brl 31 4 5 .never).wellFormed = false := by decide
theorem test_wellFormed_accepts : (Instr.br 4 5 .never).wellFormed = true ∧ (Instr.brzr 4 5).wellFormed = true := by
  decide

/-! ## Decoding: a word of every constructor, from the encodings of 30_encoding.md R80 and 95_test_vectors.md -/

theorem test_decode_loadStore :
    decodeWord 0x088A0018 = .ld 2 5 24 ∧ decodeWord 0x113FFFF8 = .ldr 4 (-8) ∧ decodeWord 0x19CC0008 = .st 7 6 8 ∧
    decodeWord 0x227FFFF4 = .str 9 (-12) ∧ decodeWord 0x2841FFFF = .la 1 0 (-1) ∧ decodeWord 0x323FFFFC = .lar 8 (-4) := by
  decide
theorem test_decode_branch :
    decodeWord 0x40085000 = .br 4 5 .never ∧ decodeWord 0x40085006 = .br 4 5 .reserved6 ∧
    decodeWord 0x4FC85007 = .brl 31 4 5 .reserved7 ∧ decodeWord 0x40080001 = .brAlways 4 0 ∧
    decodeWord 0x40085002 = .brzr 4 5 ∧ decodeWord 0x40085003 = .brnz 4 5 ∧ decodeWord 0x40085004 = .brpl 4 5 ∧
    decodeWord 0x40085005 = .brmi 4 5 := by decide
theorem test_decode_branchLink :
    decodeWord 0x4FC80001 = .brlAlways 31 4 0 ∧ decodeWord 0x49800000 = .brlnv 6 0 0 ∧
    decodeWord 0x4FC85002 = .brlzr 31 4 5 ∧ decodeWord 0x4FC85003 = .brlnz 31 4 5 ∧
    decodeWord 0x4FC85004 = .brlpl 31 4 5 ∧ decodeWord 0x4FC85005 = .brlmi 31 4 5 := by decide
theorem test_decode_arithmetic :
    decodeWord 0x60443000 = .add 1 2 3 ∧ decodeWord 0x6885FFFF = .addi 2 2 (-1) ∧ decodeWord 0x70443000 = .sub 1 2 3 ∧
    decodeWord 0x78403000 = .neg 1 3 ∧ decodeWord 0xA0443000 = .and 1 2 3 ∧ decodeWord 0xA84400FF = .andi 1 2 0xFF ∧
    decodeWord 0xB0443000 = .or 1 2 3 ∧ decodeWord 0xB845FFFE = .ori 1 2 (-2) ∧ decodeWord 0xC0403000 = .not 1 3 := by
  decide
theorem test_decode_shift :
    decodeWord 0xD0440004 = .shr 1 2 0 4 ∧ decodeWord 0xD8443000 = .shra 1 2 3 0 ∧ decodeWord 0xE044001F = .shl 1 2 0 31 ∧
    decodeWord 0xE8440008 = .shc 1 2 0 8 := by decide
theorem test_decode_interrupt :
    decodeWord 0x50000000 = .een ∧ decodeWord 0x58000000 = .edi ∧ decodeWord 0xF0000000 = .rfi ∧
    decodeWord 0x80440000 = .svi 1 2 ∧ decodeWord 0x88440000 = .ri 1 2 := by decide
theorem test_decode_misc :
    decodeWord 0x00000000 = .nop ∧ decodeWord 0xF8000000 = .stop ∧ decodeWord 0x38000000 = .reservedOp7 ∧
    decodeWord 0x90000000 = .reservedOp18 ∧ decodeWord 0x98000000 = .reservedOp19 ∧
    decodeWord 0xC8000000 = .reservedOp25 := by decide
/-- 95 section 2.1, the word 0x6885FFFF read through all seven fields. -/
theorem test_fields :
    opField 0x6885FFFF = 13 ∧ raField 0x6885FFFF = 2 ∧ rbField 0x6885FFFF = 2 ∧ rcField 0x6885FFFF = 0x1F ∧
    c3Field 0x6885FFFF = 0xFFF ∧ c2Field 0x6885FFFF = 0x1FFFF ∧ c1Field 0x6885FFFF = 0x05FFFF := by decide
/-- Ignored bits set (95 sections 2.3, 2.4, 2.6, 2.7). -/
theorem test_decode_ignores :
    decodeWord 0x57FFFFFF = .een ∧ decodeWord 0x784E3000 = .neg 1 3 ∧ decodeWord 0x47C80001 = .brAlways 4 0 ∧
    decodeWord 0xD0443FE0 = .shr 1 2 3 0 ∧ decodeWord 0x3FFFFFFF = .reservedOp7 := by decide
/-- 95 section 2.1, three builds. -/
theorem test_encode :
    encode (.ld 2 5 24) = 0x088A0018 ∧ encode (.addi 2 2 (-1)) = 0x6885FFFF ∧ encode (.ldr 4 (-8)) = 0x113FFFF8 ∧
    encode (.brlmi 31 4 5) = 0x4FC85005 ∧ encode (.shc 1 2 0 31) = 0xE844001F := by decide
theorem test_decode_short : decode [0x08, 0x8A, 0x00] = .error .tooShort := rfl
theorem test_decodeTableWord :
    decodeTableWord 32 0x088A0018 = some (.ld 2 5 24) ∧ decodeTableWord 32 0xF8000000 = some .stop := by decide
theorem test_withFetchWord :
    stepGives (State.reset.withFetchWord 32 0x6885FFFF) 2 0xFFFFFFFF 4 = true := by decide

/-! ## Loads, stores, address loads (95 section 2.2) -/

theorem test_ld_base :
    stepGives ((start 0x088A0018 [(5, 0x2000)]).writeWord 0x2018 0xCAFEBABE) 2 0xCAFEBABE 0x1004 = true := by decide
theorem test_ld_absolute_ignores_r0 :
    stepGives ((start 0x08800008 [(0, 0x500)]).writeWord 8 0x11111111) 2 0x11111111 0x1004 = true := by decide
theorem test_ldr_back :
    stepGives ((start 0x113FFFF8 []).writeWord 0xFFC 0x0A0B0C0D) 4 0xA0B0C0D 0x1004 = true := by decide
theorem test_ldr_own_word :
    stepGives (start 0x113FFFFC []) 4 0x113FFFFC 0x1004 = true := by decide
theorem test_st_unaligned :
    answers (step ((start 0x19CC0002 [(6, 0x3000), (7, 0xA1B2C3D4)]).writeWord 0x3000 0x11111111 |>.writeWord 0x3004 0x22222222))
      (fun t => t.readWord 0x3000 == 0x1111A1B2 && t.readWord 0x3004 == 0xC3D42222) = true := by decide
theorem test_st_base_is_source :
    answers (step (start 0x198C0000 [(6, 0x3000)])) (fun t => t.readWord 0x3000 == 0x3000 && t.pc == 0x1004) = true := by
  decide
theorem test_str_back :
    answers (step (start 0x227FFFF4 [(9, 0x99999999)])) (fun t => t.readWord 0xFF8 == 0x99999999) = true := by decide
theorem test_la_wraps :
    stepGives (start 0x28440020 [(2, 0xFFFFFFF0)]) 1 0x10 0x1004 = true := by decide
theorem test_la_negative :
    stepGives (start 0x28410000 []) 1 0xFFFF0000 0x1004 = true := by decide
theorem test_lar_most_negative :
    stepGives (start 0x32200000 []) 8 0xFFE01004 0x1004 = true := by decide
theorem test_lar_own :
    stepGives (start 0x323FFFFC []) 8 0x1000 0x1004 = true := by decide

/-! ## Branches (95 section 2.3) -/

theorem test_br_never :
    stepGives (start 0x40085000 [(4, 0x2000)]) 4 0x2000 0x1004 = true := by decide
theorem test_brAlways_unaligned :
    stepGives (start 0x40080001 [(4, 0x2003)]) 4 0x2003 0x2003 = true := by decide
theorem test_brzr_same :
    stepGives (start 0x40084002 []) 4 0x0 0x0 = true := by decide
theorem test_brnz_not_taken :
    stepGives (start 0x40085003 [(4, 0x2000)]) 4 0x2000 0x1004 = true := by decide
theorem test_brpl_zero :
    stepGives (start 0x40085004 [(4, 0x2000)]) 4 0x2000 0x2000 = true := by decide
theorem test_brpl_negative :
    stepGives (start 0x40085004 [(4, 0x2000), (5, 0x80000000)]) 4 0x2000 0x1004 = true := by decide
theorem test_brmi_negative :
    stepGives (start 0x40085005 [(4, 0x2000), (5, 0x80000000)]) 4 0x2000 0x2000 = true := by decide
theorem test_brlAlways_same :
    stepGives (start 0x49080001 [(4, 0x2000)]) 4 0x1004 0x2000 = true := by decide
theorem test_brlnv :
    stepGives (start 0x49800000 [(6, 0x12345678)]) 6 0x1004 0x1004 = true := by decide
theorem test_brlzr_link_is_tested :
    stepGives (start 0x49485002 [(4, 0x2000)]) 5 0x1004 0x2000 = true := by decide
theorem test_brlnz_link_is_tested :
    stepGives (start 0x49485003 [(4, 0x2000)]) 5 0x1004 0x1004 = true := by decide
theorem test_brlpl_max :
    stepGives (start 0x4FC85004 [(4, 0x2000), (5, 0x7FFFFFFF)]) 31 0x1004 0x2000 = true := by decide
theorem test_brlmi_minus_one :
    stepGives (start 0x4FC85005 [(4, 0x2000), (5, 0xFFFFFFFF)]) 31 0x1004 0x2000 = true := by decide
theorem test_br_reserved : refusedAs (step (start 0x40085006 [(4, 0x2000)])) .reservedCond = true := by decide
theorem test_brl_reserved : refusedAs (step (start 0x4FC85007 [(4, 0x2000)])) .reservedCond = true := by decide
theorem test_brl_reserved_never :
    stepGives { start 0x4FC85006 [(4, 0x2000)] with params := { reservedOpcode := .refuse, reservedCond := .never } }
      31 0x1004 0x1004 = true := by decide
/-- A condition that has no word of its own under `brl` (the decoder reads the named form): R111. -/
theorem test_brl_general :
    answers (exec (.brl 31 4 5 .zero) (start 0 [(4, 0x400)])) (fun t => t.readReg 31 == 0x1000 && t.pc == 0x400) = true := by
  decide

/-! ## Arithmetic and logic (95 section 2.4) -/

theorem test_add_signed_overflow :
    stepGives (start 0x60443000 [(2, 0x7FFFFFFF), (3, 0x1)]) 1 0x80000000 0x1004 = true := by decide
theorem test_add_source_is_destination :
    stepGives (start 0x60421000 [(1, 0x80000001)]) 1 0x2 0x1004 = true := by decide
theorem test_addi_minus_one :
    stepGives (start 0x6845FFFF []) 1 0xFFFFFFFF 0x1004 = true := by decide
theorem test_addi_r0_is_ordinary :
    stepGives (start 0x68400005 [(0, 0x64)]) 1 0x69 0x1004 = true := by decide
theorem test_sub_operands :
    stepGives (start 0x70443000 [(2, 0x5), (3, 0x7)]) 1 0xFFFFFFFE 0x1004 = true := by decide
theorem test_sub_overflow :
    stepGives (start 0x70443000 [(2, 0x80000000), (3, 0x1)]) 1 0x7FFFFFFF 0x1004 = true := by decide
theorem test_neg_rb_field_ignored :
    stepGives (start 0x784E3000 [(3, 0x5), (7, 0x1111)]) 1 0xFFFFFFFB 0x1004 = true := by decide
theorem test_and :
    stepGives (start 0xA0443000 [(2, 0xFF00FF00), (3, 0xFF00FF0)]) 1 0xF000F00 0x1004 = true := by decide
theorem test_andi_bit16_clear :
    stepGives (start 0xA844FFFF [(2, 0x12345678)]) 1 0x5678 0x1004 = true := by decide
theorem test_andi_bit16_set :
    stepGives (start 0xA8450000 [(2, 0x12345678)]) 1 0x12340000 0x1004 = true := by decide
theorem test_or :
    stepGives (start 0xB0443000 [(2, 0xFF00FF00), (3, 0xFF00FF0)]) 1 0xFFF0FFF0 0x1004 = true := by decide
theorem test_ori_bit15 :
    stepGives (start 0xB8448000 [(2, 0x12340000)]) 1 0x12348000 0x1004 = true := by decide
theorem test_ori_sign :
    stepGives (start 0xB845FFFE []) 1 0xFFFFFFFE 0x1004 = true := by decide
theorem test_not :
    stepGives (start 0xC0403000 [(3, 0xF0F0F0F)]) 1 0xF0F0F0F0 0x1004 = true := by decide

/-! ## Shifts (95 section 2.5) -/

theorem test_shr_count_register_is_destination :
    stepGives (start 0xD0441000 [(1, 0x8), (2, 0xFF000000)]) 1 0xFF0000 0x1004 = true := by decide
theorem test_shr_constant_wins :
    stepGives (start 0xD0443024 [(2, 0x80000010), (3, 0x8)]) 1 0x8000001 0x1004 = true := by decide
theorem test_shra_sign :
    stepGives (start 0xD8440004 [(2, 0x80000010)]) 1 0xF8000001 0x1004 = true := by decide
theorem test_shra_count_36 :
    stepGives (start 0xD8443000 [(2, 0x80000010), (3, 0x24)]) 1 0xF8000001 0x1004 = true := by decide
theorem test_shl_itself :
    stepGives (start 0xE0842000 [(2, 0x3)]) 2 0x18 0x1004 = true := by decide
theorem test_shl_31 :
    stepGives (start 0xE044001F [(2, 0x80000010)]) 1 0x0 0x1004 = true := by decide
theorem test_shc_16 :
    stepGives (start 0xE8440010 [(2, 0x12345678)]) 1 0x56781234 0x1004 = true := by decide
theorem test_shc_count_0 :
    stepGives (start 0xE8443000 [(1, 0x55555555), (2, 0x12345678)]) 1 0x12345678 0x1004 = true := by decide

/-! ## Interrupt and miscellaneous instructions (95 sections 2.6, 2.7) -/

theorem test_een : answers (step (start 0x50000000 [])) (fun t => t.ie && t.pc == 0x1004) = true := by decide
theorem test_edi : answers (step ((start 0x58000000 []).setIe true)) (fun t => !t.ie && t.pc == 0x1004) = true := by
  decide
theorem test_rfi :
    answers (step ((start 0xF0000000 []).setIpc 0xFFFFFFFF)) (fun t => t.ie && t.pc == 0xFFFFFFFF && t.ipc == 0xFFFFFFFF) =
      true := by decide
theorem test_svi :
    answers (step { start 0x80440000 [(1, 0xAAAA5555), (2, 0x99)] with ii := 0xFFFF0042, ipc := 0x2C })
      (fun t => t.readReg 1 == 0xAAAA0042 && t.readReg 2 == 0x2C && t.ii == 0xFFFF0042) = true := by decide
theorem test_svi_same : refusedAs (step (start 0x80C60000 [])) .sviSameRegister = true := by decide
theorem test_ri :
    answers (step { start 0x88440000 [(1, 0xAAAA0042), (2, 0x2C)] with ii := 0x12349999, ipc := 0x77 })
      (fun t => t.ii == 0x12340042 && t.ipc == 0x2C) = true := by decide
theorem test_ri_same :
    answers (step (start 0x88C60000 [(3, 0x12345678)])) (fun t => t.ii == 0x5678 && t.ipc == 0x12345678) = true := by decide
theorem test_nop_wraps :
    answers (step ((State.reset.setPc 0xFFFFFFFC).writeWord 0xFFFFFFFC 0)) (fun t => t.pc == 0) = true := by decide
theorem test_stop : answers (step (start 0xFFFFFFFF [])) (fun t => !t.run && t.pc == 0x1004) = true := by decide
theorem test_reserved_refused : refusedAs (step (start 0x3FFFFFFF [])) .reservedOpcode = true := by decide
theorem test_reserved_nop :
    answers (step { start 0xC8000000 [] with params := { reservedOpcode := .nop, reservedCond := .refuse } })
      (fun t => t.pc == 0x1004) = true := by decide

/-! ## The arms of a step (95 section 2.8) -/

/-- The common start state of section 2.8. -/
def armStart : State :=
  { start 0x68420001 [(1, 0x11), (31, 0x31)] with ie := true, ipc := 0xAAAA0000, ii := 0x7777 }

theorem test_halted :
    haltedFault (step { armStart with run := false, rst := true, ireq := true }) = true := by decide
theorem test_hardReset :
    answers (step { armStart with run := false, strt := true, rst := true, ireq := true })
      (fun t => t.run && t.pc == 0 && t.readReg 1 == 0 && t.readReg 31 == 0 && t.rst && t.ie && t.ipc == 0xAAAA0000) =
      true := by decide
theorem test_strt_while_running : stepGives { armStart with strt := true } 1 0x12 0x1004 = true := by decide
theorem test_softReset_wins :
    answers (step { armStart with rst := true, ireq := true, isrcVect := 3, isrcInfo := 0xBEEF })
      (fun t => !t.rst && !t.ie && t.pc == 0 && t.readReg 1 == 0x11 && t.ipc == 0xAAAA0000 && t.acks == []) = true := by
  decide
theorem test_interruptEntry :
    answers (step { armStart with ireq := true, isrcVect := 3, isrcInfo := 0xBEEF })
      (fun t => t.ipc == 0x1000 && t.ii == 0xBEEF && !t.ie && t.pc == 0x30 && t.readReg 1 == 0x11 && !t.iack &&
        t.acks == [{ isrcVect := 3, isrcInfo := 0xBEEF }]) = true := by decide
theorem test_interrupt_top_vector :
    answers (step { armStart with ireq := true, isrcVect := 0xFF }) (fun t => t.pc == 0xFF0) = true := by decide
theorem test_masked : stepGives { armStart with ireq := true, ie := false } 1 0x12 0x1004 = true := by decide
/-- The environment's input is sampled at the start of the step (92_eei_decisions.md D8). -/
theorem test_sampled_interrupt :
    answers (step { armStart with env := [{ strt := false, raiseRst := false, ireq := true, isrcInfo := 0xBEEF, isrcVect := 3 }] })
      (fun t => t.pc == 0x30 && t.env == []) = true := by decide

/-! ## Byte order, and the assembler's fixed points (95 section 2.9; R95, R96; program P1) -/

theorem test_memory_bigEndian :
    (State.reset.writeWord 0x2000 0x11223344).readByte 0x2000 = 0x11 ∧
    ((State.reset.writeWord 0x2000 0x11223344).writeWord 0x2004 0x55667788).readWord 0x2001 = 0x22334455 := by decide
theorem test_memory_wraps :
    (((State.reset.writeByte 0xFFFFFFFE 0xAA).writeByte 0xFFFFFFFF 0xBB).writeByte 0 0xCC |>.writeByte 1 0xDD).readWord
      0xFFFFFFFE = 0xAABBCCDD := by decide
theorem test_memory_wf_kept : (State.reset.writeWord 0xFFFFFFFE 0x00220044).mem.wf = true := by decide
theorem test_load_data :
    (State.reset.load [.directive (.org 0x100), .directive (.dc [0x12345678]), .directive (.dch [0x1234, 0x5678]),
      .directive (.db 4), .directive (.dcb [1, 2, 3, 4])]).mem =
      [(0x100, 0x12), (0x101, 0x34), (0x102, 0x56), (0x103, 0x78), (0x104, 0x12), (0x105, 0x34), (0x106, 0x56), (0x107, 0x78),
        (0x10C, 1), (0x10D, 2), (0x10E, 3), (0x10F, 4)] := by decide
theorem test_asm_words :
    (AsmForm.brzr 4 5).word = 0x40085002 ∧ (AsmForm.brlAlways 31 4).word = 0x4FC80001 ∧ (AsmForm.brlnv 6).word = 0x49800000 ∧
    (AsmForm.stAbs 1 0x100).word = 0x18400100 ∧ (AsmForm.shrConst 1 2 4).word = 0xD0440004 ∧
    (AsmForm.br 5 2 3).word = 0x400A2003 := by decide
theorem test_numbers :
    parseNumber "100".toList = some 100 ∧ parseNumber "100B".toList = some 4 ∧ parseNumber "100H".toList = some 256 ∧
    parseNumber "0FFFFH".toList = some 65535 ∧ parseNumber "12A".toList = none := by decide

/-! ## Witnesses: a concrete state and operands that meet all hypotheses of a statement together, clause by clause -/

/-- The machine with a store of `r7` to the address in `r6`, which is where the next instruction lies. -/
def storeStart : State := start 0x19CC0000 [(6, 0x1004), (7, 0xF8000000)]

/-- A halted machine with both resets requested. -/
def resetStart : State := { armStart with run := false, strt := true, rst := true }

/-- A running machine with an enabled interrupt requested. -/
def interruptStart : State := { armStart with ireq := true, isrcVect := 0xFF, isrcInfo := 0xFFFF }

theorem witness_DecodeEncodeRoundTrip :
    (Instr.brl 31 31 31 .reserved7).wellFormed = true ∧ (Instr.ld 31 0 (-65536)).wellFormed = true := by decide
theorem witness_UnreadBitsAreIgnored :
    (0x50000000 : Word) &&& rowBits (decodeWord 0x50000000) = 0x57FFFFFF &&& rowBits (decodeWord 0x50000000) := by decide
theorem witness_DecoderIsTotal :
    4 ≤ ([1, 2, 3, 4] : List Byte).length ∧ ([1, 2, 3] : List Byte).length < 4 ∧
    (0x3FFFFFFF : Word).toNat / 2 ^ 27 = 7 ∧ (0x38000000 : Word).toNat / 2 ^ 27 = 7 ∧
    (0x40000000 : Word).toNat / 2 ^ 27 ≠ 7 := by decide
theorem witness_ImmediatesAreSignExtended :
    (imm17 0x10000).getLsbD 15 = false ∧ (imm17 0x10000).getLsbD 16 = true ∧ (imm17 0x10000).getLsbD 17 = true ∧
    (imm17 0x10000).getLsbD 31 = true ∧ (imm22 0x200000).getLsbD 20 = false ∧ (imm22 0x200000).getLsbD 21 = true ∧
    (imm22 0x200000).getLsbD 22 = true ∧ (imm22 0x1FFFFF).getLsbD 31 = false := by decide
theorem witness_LdLoadsWordAtDisp :
    disp armStart 0 (-4) = 0xFFFFFFFC ∧ disp armStart 1 (-4) = 0x0D ∧ (0 : Reg) ≠ 1 := by decide
theorem witness_StStoresWordAtDisp :
    storeAddress armStart (.st 7 0 0x10000) = some 0xFFFF0000 ∧ storeAddress armStart (.st 7 1 0) = some 0x11 := by decide
theorem witness_StrStoresWordAtRel : storeAddress armStart (.str 7 0x200000) = some 0xFFE01000 := by decide
theorem witness_LaAndLarLoadAddresses :
    answers (exec (.la 1 0 5) armStart) (fun t => t.readReg 1 == 5) = true ∧
    answers (exec (.la 1 31 5) armStart) (fun t => t.readReg 1 == 0x36) = true := by decide
theorem witness_BrBranchesOnCondition :
    answers (exec (.br 1 31 .minus) armStart) (fun t => t.pc == 0x1000) = true ∧
    answers (exec (.br 1 31 .plus) armStart) (fun t => t.pc == 0x11) = true ∧
    armStart.params.reservedCond = .refuse ∧ refusedAs (exec (.br 1 31 .reserved6) armStart) .reservedCond = true := by
  decide
theorem witness_BrlLinksAndBranches :
    answers (exec (.brl 1 1 31 .nonzero) armStart) (fun t => t.pc == 0x11 && t.readReg 1 == 0x1000) = true ∧
    refusedAs (exec (.brl 1 1 31 .reserved7) armStart) .reservedCond = true := by decide
theorem witness_ReservedCondsFollowParameter :
    armStart.params.reservedCond = .refuse ∧
    refusedAs (exec (.br 1 31 .reserved7) armStart) .reservedCond = true ∧
    answers (exec (.br 1 31 .reserved6) { armStart with params := { reservedOpcode := .refuse, reservedCond := .never } })
      (fun t => t.pc == 0x1000) = true ∧
    answers (exec (.brl 1 1 31 .reserved7) { armStart with params := { reservedOpcode := .refuse, reservedCond := .never } })
      (fun t => t.pc == 0x1000 && t.readReg 1 == 0x1000) = true := by decide
theorem witness_EdiDisables :
    ({ armStart with ie := false } : State).ie = false ∧
    answers (step (({ armStart with ie := false, ireq := false } : State).writeWord armStart.pc 0x50000000)) (fun t => t.ie) =
      true := by decide
theorem witness_StopHalts :
    answers (exec .stop { armStart with strt := true }) (fun t => answers (step t) (fun u => u.run && u.pc == 0)) = true := by
  decide
theorem witness_ShcRotates : countOf armStart 0 0 = 0 ∧ countOf armStart 31 0 = 17 ∧ countOf armStart 31 31 = 31 := by
  decide
theorem witness_EenEnables :
    answers (exec .een { armStart with ie := false, ireq := true })
      (fun t => t.run && !t.sampleInputs.rst && t.sampleInputs.ireq) = true := by decide
theorem witness_RfiReturns :
    answers (exec .rfi { armStart with ie := false, ireq := true })
      (fun t => t.run && !t.sampleInputs.rst && t.sampleInputs.ireq) = true := by decide
theorem witness_SviSavesInterruptState :
    answers (exec (.svi 0 31) armStart) (fun t => t.readReg 0 == 0x7777 && t.readReg 31 == 0xAAAA0000) = true ∧
    refusedAs (exec (.svi 31 31) armStart) .sviSameRegister = true := by decide
theorem witness_SviThenRiRestores : answers (exec (.svi 1 2) armStart) (fun _ => true) = true := by decide
theorem witness_ReservedOpcodesFollowParameter :
    refusedAs (exec .reservedOp25 armStart) .reservedOpcode = true ∧
    answers (exec .reservedOp7 { armStart with params := { reservedOpcode := .nop, reservedCond := .refuse } })
      (fun t => t.pc == 0x1000) = true := by decide
theorem witness_StoreSeenByNextFetch :
    storeAddress storeStart.afterFetch (.st 7 6 0) = some 0x1004 ∧
    answers (exec (.st 7 6 0) storeStart.afterFetch)
      (fun t => t.pc == 0x1004 && t.sampleInputs.arm == .normalFetch && t.fetchWord == 0xF8000000) = true := by decide
theorem witness_OnlyStoresWriteMemory :
    answers (step storeStart) (fun t => t.readByte 0x1004 != storeStart.readByte 0x1004) = true := by decide
theorem witness_StepRunsDecodedInstruction :
    decode [storeStart.readByte storeStart.pc, storeStart.readByte (storeStart.pc + 1), storeStart.readByte (storeStart.pc + 2),
      storeStart.readByte (storeStart.pc + 3)] = .ok (.st 7 6 0, []) ∧
    storeStart.run = true ∧ storeStart.sampleInputs.rst = false ∧
    ¬(storeStart.sampleInputs.ireq = true ∧ storeStart.ie = true) := ⟨rfl, by decide⟩
theorem witness_HardResetStep : resetStart.run = false ∧ resetStart.sampleInputs.strt = true := by decide
theorem witness_SoftResetStep :
    { armStart with rst := true }.run = true ∧ { armStart with rst := true }.sampleInputs.rst = true := by decide
theorem witness_InterruptEntryStep :
    interruptStart.run = true ∧ interruptStart.sampleInputs.rst = false ∧ interruptStart.sampleInputs.ireq = true ∧
    interruptStart.ie = true := by decide
theorem witness_FaultExactlyWhenHalted :
    { armStart with run := false }.run = false ∧ { armStart with run := false }.sampleInputs.strt = false := by decide
theorem witness_RefusedExactlyWhenReserved :
    (start 0x90000000 []).sampleInputs.arm = .normalFetch ∧ decodeWord (start 0x90000000 []).fetchWord = .reservedOp18 := by
  decide
theorem witness_ExecCompletesUnlessReserved :
    Executable (.svi 1 2) Params.default ∧ ¬Executable (.svi 1 1) Params.default := by
  simp [Executable]
theorem witness_HardThenSoftReset :
    resetStart.run = false ∧ resetStart.sampleInputs.strt = true ∧ resetStart.sampleInputs.rst = true := by decide
theorem witness_InterruptThenRfiResumes :
    interruptStart.sampleInputs.arm = .interruptEntry ∧ answers (step interruptStart) (fun t => t.pc == 0xFF0) = true := by
  decide
theorem witness_PcWritersAreThese :
    answers (step armStart) (fun t => t.pc == 0x1004) = true ∧ armStart.sampleInputs.arm = .normalFetch ∧
    (decodeWord armStart.fetchWord).writesPc = false ∧ answers (step resetStart) (fun t => t.pc == 0) = true ∧
    answers (step interruptStart) (fun t => t.pc == 0xFF0) = true := by decide
theorem witness_IeWritersAreThese :
    answers (step (start 0x50000000 [])) (fun t => t.ie) = true ∧ (start 0x50000000 []).ie = false ∧
    answers (step ((start 0x58000000 []).setIe true)) (fun t => !t.ie) = true ∧
    answers (step interruptStart) (fun t => !t.ie) = true := by decide
theorem witness_IpcAndIiWritersAreThese :
    answers (step interruptStart) (fun t => t.ipc != interruptStart.ipc && t.ii != interruptStart.ii) = true := by decide
theorem witness_RunWritersAreThese :
    resetStart.run = false ∧ answers (step resetStart) (fun t => t.run) = true ∧
    (start 0xF8000000 []).run = true ∧ answers (step (start 0xF8000000 [])) (fun t => !t.run) = true := by decide
theorem witness_SignalsAndEvents :
    { armStart with rst := true }.sampleInputs.arm = .softReset ∧
    answers (step { armStart with rst := true }) (fun t => !t.rst) = true ∧
    interruptStart.sampleInputs.arm = .interruptEntry ∧
    answers (step interruptStart) (fun t => t.acks == [{ isrcVect := 0xFF, isrcInfo := 0xFFFF }]) = true := by decide
theorem witness_InputsAreSampled :
    armStart.env = [] ∧
    ({ armStart with env := [{ strt := true, raiseRst := true, ireq := false, isrcInfo := 1, isrcVect := 2 }] } : State).env ≠
      [] := by decide
theorem witness_OnlyReadRegistersMatter :
    (0 : Reg) ∉ (Instr.ld 2 0 8).reads ∧ (0 : Reg) ∉ (Instr.ld 2 0 8).writes ∧ (2 : Reg) ∈ (Instr.ld 2 0 8).writes ∧
    (2 : Reg) ∉ (Instr.ld 2 0 8).reads := by decide
theorem witness_StepKeepsInvariant :
    storeStart.mem.wf = true ∧ storeStart.iack = false ∧ answers (step storeStart) (fun t => t.mem.wf) = true := by decide
theorem witness_LoaderPlacesWords :
    4 * ([0x11223344, 0x55667788] : List Word).length ≤ 2 ^ 32 ∧ 1 < ([0x11223344, 0x55667788] : List Word).length ∧
    4 * ([0x11223344, 0x55667788] : List Word).length ≤ ((0xFE : Word) - 0x100).toNat ∧
    4 * ([0x11223344, 0x55667788] : List Word).length ≤ ((6 : Word) - 0xFFFFFFFE).toNat ∧
    (State.reset.load [.directive (.org 0xFFFFFFFE), .directive (.dc [0x11223344, 0x55667788])]).mem =
      [(0, 0x33), (1, 0x44), (2, 0x55), (3, 0x66), (4, 0x77), (5, 0x88), (0xFFFFFFFE, 0x11), (0xFFFFFFFF, 0x22)] := by
  decide

end Sys2Proof.Tests
end

/-! PROOFS. The immediates bit by bit (00_scope.md R11, 30_encoding.md R79). -/

namespace Sys2Proof.Machine

/-- Below the field's width a bit is the field's own; from there up to bit 31 it is the field's top bit (R11). -/
theorem getLsbD_imm17 (c2 : BitVec 17) {k : Nat} (hk : k < 32) :
    (imm17 c2).getLsbD k = if k < 17 then c2.getLsbD k else c2.getLsbD 16 := by
  have top : c2.msb = c2.getLsbD 16 := BitVec.msb_eq_getLsbD_last c2
  rw [imm17, BitVec.getLsbD_signExtend, top]
  simp [hk]

/-- As `getLsbD_imm17`, for the 22-bit displacement (R11). -/
theorem getLsbD_imm22 (c1 : BitVec 22) {k : Nat} (hk : k < 32) :
    (imm22 c1).getLsbD k = if k < 22 then c1.getLsbD k else c1.getLsbD 21 := by
  have top : c1.msb = c1.getLsbD 21 := BitVec.msb_eq_getLsbD_last c1
  rw [imm22, BitVec.getLsbD_signExtend, top]
  simp [hk]

/-- Settles O7, one lemma per width of field. -/
theorem immediatesAreSignExtended : Obligations.ImmediatesAreSignExtended :=
  ⟨fun c2 _ => getLsbD_imm17 c2, fun c1 _ => getLsbD_imm22 c1⟩

end Sys2Proof.Machine

/-! PROOFS. What an instruction's effect does to each item of state (10_state.md R24 to R43), and from it what a step
does: the writers of each item, the signals and events, and the invariant. -/

namespace Sys2Proof.Machine

/-! ## One item of state across an instruction's effect -/

/-- No instruction changes a signal, the pending inputs, the acknowledge events or the parameters (R38 to R43). -/
theorem Effect.keepsSignals {i : Instr} {s t : State} (h : Effect i s t) : KeepsSignals s t := by
  cases h <;> simp [KeepsSignals, State.writeRegLow]

/-- Only the stores touch memory, and a word write keeps its canonical form. -/
theorem Effect.mem_wf {i : Instr} {s t : State} (h : Effect i s t) (hs : s.mem.wf = true) : t.mem.wf = true := by
  cases h with
  | store a v _ => exact State.wf_writeWord a v hs
  | none | reg | jump | link | een | edi | rfi | svi | ri | stop => simpa [State.writeRegLow] using hs

theorem Effect.pc_eq_of_not_writesPc {i : Instr} {s t : State} (h : Effect i s t) (hi : i.writesPc = false) :
    t.pc = s.pc := by
  cases h with
  | jump _ hp => simp [hp] at hi
  | link _ _ _ hp => simp [hp] at hi
  | rfi hp => subst hp; cases hi
  | none | reg | store | een | edi | svi | ri | stop => simp [State.writeRegLow]

/-- Only `een` and `rfi` leave `IE` at 1 anew, only `edi` at 0 (R30). -/
theorem Effect.ie_cases {i : Instr} {s t : State} (h : Effect i s t) :
    t.ie = s.ie ∨ (t.ie = true ∧ (i = .een ∨ i = .rfi)) ∨ (t.ie = false ∧ i = .edi) := by
  cases h with
  | een hi => exact .inr (.inl ⟨rfl, .inl hi⟩)
  | rfi hi => exact .inr (.inl ⟨rfl, .inr hi⟩)
  | edi hi => exact .inr (.inr ⟨rfl, hi⟩)
  | none | reg | store | jump | link | svi | ri | stop => exact .inl (by simp [State.writeRegLow])

/-- Only `ri` writes `IPC` and `II` (R31, R32). -/
theorem Effect.ipc_ii_cases {i : Instr} {s t : State} (h : Effect i s t) :
    (t.ipc = s.ipc ∧ t.ii = s.ii) ∨ ∃ ra rb, i = .ri ra rb := by
  cases h with
  | ri ra rb hi => exact .inr ⟨ra, rb, hi⟩
  | none | reg | store | jump | link | een | edi | rfi | svi | stop => exact .inl (by simp [State.writeRegLow])

/-- `ri` replaces the low half of `II` only (R32). -/
theorem Effect.ii_upperHalf {i : Instr} {s t : State} (h : Effect i s t) :
    t.ii.extractLsb' 16 16 = s.ii.extractLsb' 16 16 := by
  cases h with
  | ri ra rb _ => exact upperHalf_withLowHalf s.ii _
  | none | reg | store | jump | link | een | edi | rfi | svi | stop => simp [State.writeRegLow]

theorem Effect.run_cases {i : Instr} {s t : State} (h : Effect i s t) : t.run = s.run ∨ i = .stop := by
  cases h with
  | stop hi => exact .inr hi
  | none | reg | store | jump | link | een | edi | rfi | svi | ri => exact .inl (by simp [State.writeRegLow])

/-! ## What every step keeps -/

/-- Settles O58: the resets and the interrupt entry leave memory alone, an instruction keeps it canonical. -/
theorem stepKeepsInvariant : Obligations.StepKeepsInvariant := by
  intro s t ⟨hwf, hiack⟩ hstep
  have hmem : s.sampleInputs.mem.wf = true := by simpa using hwf
  have hack : s.sampleInputs.iack = false := by simpa using hiack
  rcases step_cases hstep with ⟨-, rfl⟩ | ⟨-, rfl⟩ | ⟨-, rfl⟩ | ⟨-, heff⟩
  · exact ⟨hmem, hack⟩
  · exact ⟨hmem, hack⟩
  · exact ⟨hmem, rfl⟩
  · obtain ⟨-, -, -, hk, -⟩ := heff.keepsSignals
    exact ⟨heff.mem_wf hmem, hk.trans hack⟩

/-! ## The writers of each item -/

/-- The vector stands above four zero bits (R44), so the address is 16 times it. -/
theorem toNat_ivect (v : BitVec 8) : (ivect v).toNat = v.toNat * 16 := by
  rw [ivect, toNat_append_eq, toNat_append_eq]
  simp

/-- Settles O51, by the arm that was taken; the fetch itself advances `PC` by 4 (R26). -/
theorem pcWritersAreThese : Obligations.PcWritersAreThese := by
  intro s t hstep
  rcases step_cases hstep with ⟨harm, rfl⟩ | ⟨harm, rfl⟩ | ⟨harm, rfl⟩ | ⟨harm, heff⟩
  · simp [harm]
  · simp [harm]
  · have hlt := s.sampleInputs.isrcVect.isLt
    refine ⟨by simp [harm], by simp [harm], fun _ => ?_⟩
    rw [State.enterInterrupt_pc, toNat_ivect]
    omega
  · simp only [harm]
    simpa using heff.pc_eq_of_not_writesPc

/-- Settles O52, by the arm that was taken, and on the fetch arm by what the instruction did to `IE`. -/
theorem ieWritersAreThese : Obligations.IeWritersAreThese := by
  intro s t hstep
  rcases step_cases hstep with ⟨harm, rfl⟩ | ⟨harm, rfl⟩ | ⟨harm, rfl⟩ | ⟨harm, heff⟩
  · simp +contextual
  · simp [harm]
  · simp [harm]
  · rcases heff.ie_cases with hie | ⟨hie, hi⟩ | ⟨hie, hi⟩
    · simp +contextual [hie]
    · simp [hie, harm, hi]
    · simp [hie, harm, hi]

/-- Settles O53: the entry and `ri` both go through `withLowHalf`, which keeps the upper half of `II`. -/
theorem ipcAndIiWritersAreThese : Obligations.IpcAndIiWritersAreThese := by
  intro s t hstep
  rcases step_cases hstep with ⟨-, rfl⟩ | ⟨-, rfl⟩ | ⟨harm, rfl⟩ | ⟨harm, heff⟩
  · simp
  · simp
  · exact ⟨fun _ => .inl harm, by simp [upperHalf_withLowHalf]⟩
  · refine ⟨fun hne => .inr ⟨harm, ?_⟩, by simpa using heff.ii_upperHalf⟩
    rcases heff.ipc_ii_cases with ⟨hipc, hii⟩ | hri
    · simp [hipc, hii] at hne
    · exact hri

/-- The machine halts after a fetched `stop` (R161). -/
theorem run_of_step_stop {s t : State} (harm : s.sampleInputs.arm = .normalFetch)
    (hi : decodeWord s.fetchWord = .stop) (hstep : step s = .next t) : t.run = false := by
  rw [step_of_normalFetch harm, hi] at hstep
  cases hstep
  rfl

/-- Settles O54: each arm's guard fixes `Run` before the step (R176), and `stop` is the one instruction that writes it. -/
theorem runWritersAreThese : Obligations.RunWritersAreThese := by
  intro s t hstep
  rcases step_cases hstep with ⟨harm, rfl⟩ | ⟨harm, rfl⟩ | ⟨harm, rfl⟩ | ⟨harm, heff⟩
  · have hrun : s.run = false := by simpa using (arm_eq_hardReset.mp harm).1
    simp [hrun, harm]
  · have hrun : s.run = true := by simpa using (arm_eq_softReset.mp harm).1
    simp [hrun, harm]
  · have hrun : s.run = true := by simpa using (arm_eq_interruptEntry.mp harm).1
    simp [hrun, harm]
  · have hrun : s.run = true := by simpa using (arm_eq_normalFetch.mp harm).1
    refine ⟨by simp [hrun], fun _ => ⟨fun ht => ⟨harm, ?_⟩, fun ⟨_, hi⟩ => run_of_step_stop harm hi hstep⟩⟩
    rcases heff.run_cases with h | h
    · simp [hrun, ht] at h
    · exact h

/-- A step takes the next input off the list. -/
@[simp] theorem State.sampleInputs_env (s : State) : s.sampleInputs.env = s.env.tail := by
  unfold State.sampleInputs
  split <;> simp_all

/-- Settles O55: on the fetch arm every signal is as sampled, since no instruction writes one. -/
theorem signalsAndEvents : Obligations.SignalsAndEvents := by
  intro s t hstep
  rcases step_cases hstep with ⟨harm, rfl⟩ | ⟨harm, rfl⟩ | ⟨harm, rfl⟩ | ⟨harm, heff⟩
  · simp [harm]
  · simp [harm]
  · simp [harm]
  · obtain ⟨hstrt, hrst, hireq, hiack, hinfo, hvect, henv, hacks, hparams⟩ := heff.keepsSignals
    simp [harm, hstrt, hrst, hireq, hiack, hinfo, hvect, henv, hacks, hparams]

/-! ## Sampling, and the fetch -/

/-- Settles O42: the fetch arm's guard is the one stated (R176), and the word at `PC` is made of the four bytes. -/
theorem stepRunsDecodedInstruction : Obligations.StepRunsDecodedInstruction := by
  intro s i hdec hrun hrst hint
  have harm : s.sampleInputs.arm = .normalFetch :=
    arm_eq_normalFetch.mpr ⟨by simpa using hrun, hrst, by simpa using hint⟩
  have hi : decodeWord s.fetchWord = i := by
    rw [State.fetchWord, readWord_eq]
    simpa [decode] using hdec
  rw [step_of_normalFetch harm, hi]
  simp [State.afterFetch, State.fetchWord]

/-- Sampling changes the input signals and the list of inputs only (D8). -/
theorem State.sampleInputs_with_signals (s : State) :
    { s.sampleInputs with
      strt := s.strt, rst := s.rst, ireq := s.ireq, isrcInfo := s.isrcInfo, isrcVect := s.isrcVect, env := s.env } = s := by
  unfold State.sampleInputs
  split <;> rfl

/-- Settles O56, by whether an input is listed. -/
theorem inputsAreSampled : Obligations.InputsAreSampled := by
  intro s
  refine ⟨State.sampleInputs_nil s, fun e rest henv => ?_, ?_⟩
  · simp [State.sampleInputs_cons s e rest henv]
  · rw [State.sampleInputs_with_signals]
    exact ⟨fun _ _ => rfl, rfl, fun _ => rfl, ⟨rfl, rfl, rfl⟩, ⟨rfl, rfl⟩, keepsSignals_refl s⟩

end Sys2Proof.Machine

/-! PROOFS. An instruction depends on the registers it reads and no others (10_state.md R22). -/

namespace Sys2Proof.Machine

/-! ## Two writes to the register file -/

/-- A second write to a register hides the first. -/
theorem State.writeReg_writeReg_same (s : State) (r : Reg) (v w : Word) :
    (s.writeReg r v).writeReg r w = s.writeReg r w := by
  simp [State.writeReg]

/-- A write to one register commutes with a write to the low half of another. -/
theorem State.writeRegLow_writeReg (s : State) {r q : Reg} (v : Word) (lo : BitVec 16) (h : r ≠ q) :
    (s.writeReg r v).writeRegLow q lo = (s.writeRegLow q lo).writeReg r v := by
  rw [State.writeRegLow, State.readReg_writeReg_other s v h.symm, State.writeReg_comm s v _ h, State.writeRegLow]

theorem mapNext_writeReg_same (o : Host.Outcome State Fault Refusal) (r : Reg) (v w : Word) :
    mapNext (fun t => t.writeReg r w) (mapNext (fun t => t.writeReg r v) o) = mapNext (fun t => t.writeReg r w) o := by
  cases o with
  | next t => simp [mapNext, State.writeReg_writeReg_same]
  | fault | refused => rfl

theorem mapNext_writeReg_comm (o : Host.Outcome State Fault Refusal) {r q : Reg} (v w : Word) (h : r ≠ q) :
    mapNext (fun t => t.writeReg q w) (mapNext (fun t => t.writeReg r v) o) =
      mapNext (fun t => t.writeReg r v) (mapNext (fun t => t.writeReg q w) o) := by
  cases o with
  | next t => simp [mapNext, State.writeReg_comm t v w h]
  | fault | refused => rfl

/-! ## The operands under a change of one register -/

/-- `disp` reads its base register only, and none where `rb` is 0 (R74). -/
theorem disp_writeReg (s : State) {r rb : Reg} (v : Word) (c2 : BitVec 17) (h : rb ≠ 0 → r ≠ rb) :
    disp (s.writeReg r v) rb c2 = disp s rb c2 := by
  by_cases hb : rb = 0
  · rw [hb, disp_zero, disp_zero]
  · rw [disp_base _ hb, disp_base _ hb, State.readReg_writeReg_other s v (h hb).symm]

/-- A shift count reads `rc` only where the constant count is 0 (R78). -/
theorem shiftCount_writeReg (s : State) {r rc : Reg} (v : Word) (c3 : BitVec 5) (h : c3 = 0 → r ≠ rc) :
    shiftCount (s.writeReg r v) rc c3 = shiftCount s rc c3 := by
  unfold shiftCount
  by_cases hc : c3 = 0
  · rw [State.readReg_writeReg_other s v (h hc).symm]
  · rw [if_neg hc, if_neg hc]

/-- Only the four conditions that test a register can tell its contents apart (R76, R77). -/
theorem branchTaken_writeReg (s : State) {c : Cond} {r rb rc : Reg} (v : Word) (p : ReservedCond)
    (hr : r ∉ (Instr.br rb rc c).reads) :
    branchTaken p c ((s.writeReg r v).readReg rc) = branchTaken p c (s.readReg rc) := by
  cases c with
  | never | always | reserved6 | reserved7 => rfl
  | zero | nonzero | plus | minus =>
    have hne : rc ≠ r := by
      rintro rfl
      simp [Instr.reads] at hr
    rw [State.readReg_writeReg_other s v hne]

/-- A branch that can be taken reads its target register (R110). -/
theorem ne_target_of_branchTaken {c : Cond} {r rb rc : Reg} {p : ReservedCond} {x : Word}
    (hr : r ∉ (Instr.br rb rc c).reads) (ht : branchTaken p c x = some true) : rb ≠ r := by
  rintro rfl
  cases c with
  | never => simp [branchTaken, condValue] at ht
  | reserved6 | reserved7 => cases p <;> simp [branchTaken, condValue] at ht
  | always | zero | nonzero | plus | minus => simp [Instr.reads] at hr

/-- A branch carries a register it does not read along. -/
theorem branch_writeReg (s : State) {c : Cond} {r rb rc : Reg} (v : Word) (hr : r ∉ (Instr.br rb rc c).reads) :
    branch c rb rc (s.writeReg r v) = mapNext (fun t => t.writeReg r v) (branch c rb rc s) := by
  unfold branch
  rw [branchTaken_writeReg s v _ hr, State.writeReg_params]
  cases ht : branchTaken s.params.reservedCond c (s.readReg rc) with
  | none => rfl
  | some taken =>
    cases taken with
    | false => rfl
    | true =>
      rw [State.readReg_writeReg_other s v (ne_target_of_branchTaken hr ht)]
      rfl

/-- Branch and link is the branch, then the link (R111). -/
theorem branchLink_eq_branch (c : Cond) (ra rb rc : Reg) (s : State) :
    branchLink c ra rb rc s = mapNext (fun t => t.writeReg ra s.pc) (branch c rb rc s) := by
  unfold branchLink branch
  rcases branchTaken s.params.reservedCond c (s.readReg rc) with _ | _ | _ <;> rfl

/-! ## One instruction and one register it does not read -/

/-- The old contents of `r` reach nothing but `r`, and not even `r` where `i` writes all of it. -/
def IgnoresReg (i : Instr) (r : Reg) (v : Word) (s : State) : Prop :=
  (r ∉ i.writes → exec i (s.writeReg r v) = mapNext (fun t => t.writeReg r v) (exec i s)) ∧
  (r ∈ i.writes → (∀ rb, i ≠ .svi r rb) → exec i (s.writeReg r v) = exec i s)

section
variable {i : Instr} {ra rb rc r : Reg} {v : Word} {s : State}

/-- An instruction that writes no register. -/
theorem ignoresReg_of_no_write (hw : i.writes = [])
    (h : exec i (s.writeReg r v) = mapNext (fun t => t.writeReg r v) (exec i s)) : IgnoresReg i r v s :=
  ⟨fun _ => h, fun hr => by simp [hw] at hr⟩

/-- An instruction that does something that carries `r` along and then writes `w` to `R[ra]`. -/
theorem ignoresReg_of_write {w : Word} {o : Host.Outcome State Fault Refusal} (hw : i.writes = [ra])
    (hs : exec i s = mapNext (fun t => t.writeReg ra w) o)
    (hs' : exec i (s.writeReg r v) = mapNext (fun t => t.writeReg ra w) (mapNext (fun t => t.writeReg r v) o)) :
    IgnoresReg i r v s := by
  rw [IgnoresReg, hs, hs', hw]
  refine ⟨fun hr => mapNext_writeReg_comm o v w (by simpa using hr), fun hr _ => ?_⟩
  obtain rfl : r = ra := by simpa using hr
  exact mapNext_writeReg_same o r v w

/-- An instruction that leaves a value in one register, where the value does not depend on `r`. -/
theorem ignoresReg_of_result (value : State → Word) (hw : i.writes = [ra])
    (hexec : ∀ s, exec i s = .next (s.writeReg ra (value s))) (hval : value (s.writeReg r v) = value s) :
    IgnoresReg i r v s :=
  ignoresReg_of_write (o := .next s) hw (hexec s) (by rw [hexec, hval]; rfl)

theorem ignoresReg_of_unary (f : Word → Word) (hw : i.writes = [ra])
    (hexec : ∀ s, exec i s = .next (s.writeReg ra (f (s.readReg rb)))) (hr : r ∉ [rb]) : IgnoresReg i r v s := by
  have hb : rb ≠ r := by simpa [eq_comm] using hr
  exact ignoresReg_of_result (fun s => f (s.readReg rb)) hw hexec (by simp [State.readReg_writeReg_other s v hb])

theorem ignoresReg_of_binary (f : Word → Word → Word) (hw : i.writes = [ra])
    (hexec : ∀ s, exec i s = .next (s.writeReg ra (f (s.readReg rb) (s.readReg rc)))) (hr : r ∉ [rb, rc]) :
    IgnoresReg i r v s := by
  obtain ⟨hb, hc⟩ : rb ≠ r ∧ rc ≠ r := by simpa [eq_comm] using hr
  exact ignoresReg_of_result (fun s => f (s.readReg rb) (s.readReg rc)) hw hexec
    (by simp [State.readReg_writeReg_other s v hb, State.readReg_writeReg_other s v hc])

/-- A shift reads the register of its count only where the constant count is 0 (R78). -/
theorem ignoresReg_of_shift {c3 : BitVec 5} (f : Word → Nat → Word) (hw : i.writes = [ra])
    (hexec : ∀ s, exec i s = .next (s.writeReg ra (f (s.readReg rb) (shiftCount s rc c3))))
    (hr : r ∉ if c3 = 0 then [rb, rc] else [rb]) : IgnoresReg i r v s := by
  have hb : rb ≠ r := by
    rintro rfl
    split at hr <;> simp at hr
  have hc : c3 = 0 → r ≠ rc := by
    rintro h rfl
    simp [h] at hr
  exact ignoresReg_of_result (fun s => f (s.readReg rb) (shiftCount s rc c3)) hw hexec
    (by simp only [State.readReg_writeReg_other s v hb, shiftCount_writeReg s v c3 hc])

/-- A load of a word or of an address reads its base register only, and none where `rb` is 0 (R74). -/
theorem ignoresReg_of_disp {c2 : BitVec 17} (f : State → Word → Word) (hw : i.writes = [ra])
    (hexec : ∀ s, exec i s = .next (s.writeReg ra (f s (disp s rb c2))))
    (hf : ∀ a, f (s.writeReg r v) a = f s a) (hr : r ∉ if rb = 0 then [] else [rb]) : IgnoresReg i r v s := by
  have hb : rb ≠ 0 → r ≠ rb := by
    rintro h rfl
    simp [h] at hr
  exact ignoresReg_of_result (fun s => f s (disp s rb c2)) hw hexec (by rw [disp_writeReg s v c2 hb, hf])

theorem ignoresReg_of_branch {c : Cond} (hw : i.writes = []) (hexec : ∀ s, exec i s = branch c rb rc s)
    (hr : r ∉ (Instr.br rb rc c).reads) : IgnoresReg i r v s :=
  ignoresReg_of_no_write hw (by rw [hexec, hexec, branch_writeReg s v hr])

theorem ignoresReg_of_branchLink {c : Cond} (hw : i.writes = [ra]) (hexec : ∀ s, exec i s = branchLink c ra rb rc s)
    (hr : r ∉ (Instr.br rb rc c).reads) : IgnoresReg i r v s :=
  ignoresReg_of_write hw (by rw [hexec, branchLink_eq_branch])
    (by rw [hexec, branchLink_eq_branch, branch_writeReg s v hr, State.writeReg_pc])

theorem ignoresReg_of_reservedOpcode (hw : i.writes = []) (hexec : ∀ s, exec i s = reservedOpcode s) :
    IgnoresReg i r v s := by
  refine ignoresReg_of_no_write hw ?_
  rw [hexec, hexec, reservedOpcode, reservedOpcode, State.writeReg_params]
  cases s.params.reservedOpcode <;> rfl

theorem ignoresReg_st {c2 : BitVec 17} (hr : r ∉ (Instr.st ra rb c2).reads) : IgnoresReg (.st ra rb c2) r v s := by
  have ha : ra ≠ r := by
    rintro rfl
    simp only [Instr.reads] at hr
    split at hr <;> simp at hr
  have hb : rb ≠ 0 → r ≠ rb := by
    rintro h rfl
    simp [Instr.reads, h] at hr
  refine ignoresReg_of_no_write rfl ?_
  simp only [exec, execSt]
  rw [disp_writeReg s v c2 hb, State.readReg_writeReg_other s v ha]
  rfl

/-- `svi` keeps the upper half of `R[ra]`, so the register that it overwrites whole is `R[rb]` (R153). -/
theorem ignoresReg_svi : IgnoresReg (.svi ra rb) r v s := by
  simp only [IgnoresReg, exec, execSvi, Instr.writes]
  by_cases hab : ra = rb
  · simp [hab, mapNext]
  · simp only [if_neg hab, mapNext, Host.Outcome.next.injEq, State.writeReg_ii, State.writeReg_ipc]
    refine ⟨fun hr => ?_, fun hr hsvi => ?_⟩
    · obtain ⟨ha, hb⟩ : r ≠ ra ∧ r ≠ rb := by simpa using hr
      rw [State.writeRegLow_writeReg s v _ ha, State.writeReg_comm _ v _ hb]
    · have ha : r ≠ ra := fun h => hsvi rb (h ▸ rfl)
      obtain rfl : r = rb := by simpa [ha] using hr
      rw [State.writeRegLow_writeReg s v _ ha, State.writeReg_writeReg_same]

theorem ignoresReg_ri (hr : r ∉ [ra, rb]) : IgnoresReg (.ri ra rb) r v s := by
  obtain ⟨ha, hb⟩ : ra ≠ r ∧ rb ≠ r := by simpa [eq_comm] using hr
  refine ignoresReg_of_no_write rfl ?_
  simp only [exec, execRi, State.readReg_writeReg_other s v ha, State.readReg_writeReg_other s v hb]
  rfl

/-- Every instruction ignores every register it does not read. -/
theorem ignoresReg_of_not_reads (hr : r ∉ i.reads) : IgnoresReg i r v s := by
  cases i with
  | nop | een | edi | rfi | stop => exact ignoresReg_of_no_write rfl rfl
  | ld ra rb c2 => exact ignoresReg_of_disp State.readWord rfl (fun _ => rfl) (fun _ => rfl) hr
  | la ra rb c2 => exact ignoresReg_of_disp (fun _ a => a) rfl (fun _ => rfl) (fun _ => rfl) hr
  | ldr ra c1 => exact ignoresReg_of_result (fun s => s.readWord (rel s c1)) rfl (fun _ => rfl) rfl
  | lar ra c1 => exact ignoresReg_of_result (fun s => rel s c1) rfl (fun _ => rfl) rfl
  | st ra rb c2 => exact ignoresReg_st hr
  | str ra c1 =>
    have ha : ra ≠ r := by simpa [Instr.reads, eq_comm] using hr
    refine ignoresReg_of_no_write rfl ?_
    simp only [exec, execStr, State.readReg_writeReg_other s v ha]
    rfl
  | br rb rc c => exact ignoresReg_of_branch rfl (fun _ => rfl) hr
  | brAlways rb rc => exact ignoresReg_of_branch (c := .always) (rb := rb) (rc := rc) rfl (fun _ => rfl) hr
  | brzr rb rc => exact ignoresReg_of_branch (c := .zero) (rb := rb) (rc := rc) rfl (fun _ => rfl) hr
  | brnz rb rc => exact ignoresReg_of_branch (c := .nonzero) (rb := rb) (rc := rc) rfl (fun _ => rfl) hr
  | brpl rb rc => exact ignoresReg_of_branch (c := .plus) (rb := rb) (rc := rc) rfl (fun _ => rfl) hr
  | brmi rb rc => exact ignoresReg_of_branch (c := .minus) (rb := rb) (rc := rc) rfl (fun _ => rfl) hr
  | brl ra rb rc c => exact ignoresReg_of_branchLink rfl (fun _ => rfl) hr
  | brlAlways ra rb rc => exact ignoresReg_of_branchLink (c := .always) (rb := rb) (rc := rc) rfl (fun _ => rfl) hr
  | brlnv ra rb rc => exact ignoresReg_of_branchLink (c := .never) (rb := rb) (rc := rc) rfl (fun _ => rfl) hr
  | brlzr ra rb rc => exact ignoresReg_of_branchLink (c := .zero) (rb := rb) (rc := rc) rfl (fun _ => rfl) hr
  | brlnz ra rb rc => exact ignoresReg_of_branchLink (c := .nonzero) (rb := rb) (rc := rc) rfl (fun _ => rfl) hr
  | brlpl ra rb rc => exact ignoresReg_of_branchLink (c := .plus) (rb := rb) (rc := rc) rfl (fun _ => rfl) hr
  | brlmi ra rb rc => exact ignoresReg_of_branchLink (c := .minus) (rb := rb) (rc := rc) rfl (fun _ => rfl) hr
  | add ra rb rc => exact ignoresReg_of_binary (· + ·) rfl (fun _ => rfl) hr
  | sub ra rb rc => exact ignoresReg_of_binary (· - ·) rfl (fun _ => rfl) hr
  | and ra rb rc => exact ignoresReg_of_binary (· &&& ·) rfl (fun _ => rfl) hr
  | or ra rb rc => exact ignoresReg_of_binary (· ||| ·) rfl (fun _ => rfl) hr
  | addi ra rb c2 => exact ignoresReg_of_unary (· + imm17 c2) rfl (fun _ => rfl) hr
  | andi ra rb c2 => exact ignoresReg_of_unary (· &&& imm17 c2) rfl (fun _ => rfl) hr
  | ori ra rb c2 => exact ignoresReg_of_unary (· ||| imm17 c2) rfl (fun _ => rfl) hr
  | neg ra rc => exact ignoresReg_of_unary (0 - ·) rfl (fun _ => rfl) hr
  | not ra rc => exact ignoresReg_of_unary (~~~ ·) rfl (fun _ => rfl) hr
  | shr ra rb rc c3 => exact ignoresReg_of_shift shiftRight rfl (fun _ => rfl) hr
  | shra ra rb rc c3 => exact ignoresReg_of_shift shiftRightArith rfl (fun _ => rfl) hr
  | shl ra rb rc c3 => exact ignoresReg_of_shift shiftLeft rfl (fun _ => rfl) hr
  | shc ra rb rc c3 => exact ignoresReg_of_shift rotateLeft rfl (fun _ => rfl) hr
  | svi ra rb => exact ignoresReg_svi
  | ri ra rb => exact ignoresReg_ri hr
  | reservedOp7 | reservedOp18 | reservedOp19 | reservedOp25 => exact ignoresReg_of_reservedOpcode rfl fun _ => rfl

end

/-- Settles O57, by the shape of each instruction's meaning. -/
theorem onlyReadRegistersMatter : Obligations.OnlyReadRegistersMatter :=
  fun _ _ _ _ hr => ignoresReg_of_not_reads hr

end Sys2Proof.Machine

/-! PROOFS. Memory (20_memory.md R51 to R55, R63): a word as its four bytes, and which step changes a byte. -/

namespace Sys2Proof.Machine

/-! ## A word and its bytes -/

/-- A word write lays the bytes out most significant first (R53). -/
theorem wordAt_writeWord (s : State) (a v : Word) : WordAt (s.writeWord a v) a v :=
  ⟨State.readByte_writeWord_0 s a v, State.readByte_writeWord_1 s a v, State.readByte_writeWord_2 s a v,
    State.readByte_writeWord_3 s a v⟩

/-- Settles O38: the three parts are the memory laws of a word write. -/
theorem wordWriteThenRead : Obligations.WordWriteThenRead := by
  intro s a v
  obtain ⟨hbytes, -⟩ := onlyWordAt_writeWord s a v
  exact ⟨State.readWord_writeWord_same s a v, wordAt_writeWord s a v, hbytes⟩

/-- The four bytes are the digits of the word in base 256 (R52). -/
theorem toNat_wordOfBytes (b0 b1 b2 b3 : Byte) :
    (wordOfBytes b0 b1 b2 b3).toNat =
      b0.toNat * 2 ^ 24 + b1.toNat * 2 ^ 16 + b2.toNat * 2 ^ 8 + b3.toNat := by
  have h3 := toNat_append_eq (b0 ++ b1 ++ b2) b3
  have h2 := toNat_append_eq (b0 ++ b1) b2
  have h1 := toNat_append_eq b0 b1
  refine h3.trans ?_
  rw [h2, h1]
  omega

/-- Settles O39: the byte addresses are sums of words, which wrap at 2^32 (R54). -/
theorem wordReadIsBigEndian : Obligations.WordReadIsBigEndian := by
  intro s a
  rw [readWord_eq, toNat_wordOfBytes]
  simp only [State.readByte, BitVec.toNat_add]
  rfl

/-! ## Stores, and the fetch after one -/

/-- Both stores write `R[ra]` at the address of `storeAddress` (R102, R103). -/
theorem exec_eq_writeWord_of_store {i : Instr} {ra : Reg} {a : Word} {s : State}
    (hi : (∃ rb c2, i = .st ra rb c2) ∨ ∃ c1, i = .str ra c1) (ha : storeAddress s i = some a) :
    exec i s = .next (s.writeWord a (s.readReg ra)) := by
  rcases hi with ⟨rb, c2, rfl⟩ | ⟨c1, rfl⟩ <;> cases ha <;> rfl

/-- Settles O40: neither the store nor the sampling of inputs moves `PC`, so the fetch reads the word just written. -/
theorem storeSeenByNextFetch : Obligations.StoreSeenByNextFetch := by
  intro i ra a s t hi ha hexec hpc harm
  rw [exec_eq_writeWord_of_store hi ha] at hexec
  cases hexec
  have hfetch : (s.writeWord a (s.readReg ra)).fetchWord = s.readReg ra := by
    rw [State.fetchWord, hpc, State.readWord_writeWord_same]
  exact ⟨by rw [step_of_normalFetch harm, hfetch], by simp [hfetch]⟩

/-! ## The one writer of memory -/

/-- An instruction changes a byte only if it stores to the word the byte is in (R51). -/
theorem Effect.readByte_cases {i : Instr} {s t : State} (h : Effect i s t) (b : Word) :
    t.readByte b = s.readByte b ∨ ∃ a, storeAddress s i = some a ∧ b ∈ wordAddresses a := by
  cases h with
  | store a v ha =>
    obtain ⟨hbytes, -⟩ := onlyWordAt_writeWord s a v
    by_cases hb : b ∈ wordAddresses a
    · exact .inr ⟨a, ha, hb⟩
    · exact .inl (hbytes b hb)
  | none | reg | jump | link | een | edi | rfi | svi | ri | stop => exact .inl (by simp [State.writeRegLow])

/-- Settles O41: the resets and the interrupt entry keep every byte, so the instruction fetched changed it. -/
theorem onlyStoresWriteMemory : Obligations.OnlyStoresWriteMemory := by
  intro s t b hstep hne
  rcases step_cases hstep with ⟨-, rfl⟩ | ⟨-, rfl⟩ | ⟨-, rfl⟩ | ⟨harm, heff⟩
  · simp at hne
  · simp at hne
  · simp at hne
  · rcases heff.readByte_cases b with hb | hstore
    · simp [hb] at hne
    · exact ⟨harm, hstore⟩

end Sys2Proof.Machine

/-! PROOFS. The decoder and the encoder (30_encoding.md R70 to R97): a decoded instruction encodes to its word masked by
its row, and an encoded one decodes to itself. -/

namespace Sys2Proof.Machine

/-! ## The fields of a word as numbers, and the word made of its fields (R70) -/

theorem toNat_opField (w : Word) : (opField w).toNat = w.toNat / 2 ^ 27 := by
  have hw := w.isLt
  rw [opField, BitVec.extractLsb'_toNat, Nat.shiftRight_eq_div_pow]
  omega

theorem val_raField (w : Word) : (raField w).val = w.toNat / 2 ^ 22 % 2 ^ 5 := by
  rw [raField, BitVec.val_toFin, BitVec.extractLsb'_toNat, Nat.shiftRight_eq_div_pow]

theorem val_rbField (w : Word) : (rbField w).val = w.toNat / 2 ^ 17 % 2 ^ 5 := by
  rw [rbField, BitVec.val_toFin, BitVec.extractLsb'_toNat, Nat.shiftRight_eq_div_pow]

theorem val_rcField (w : Word) : (rcField w).val = w.toNat / 2 ^ 12 % 2 ^ 5 := by
  rw [rcField, BitVec.val_toFin, BitVec.extractLsb'_toNat, Nat.shiftRight_eq_div_pow]

theorem toNat_c1Field (w : Word) : (c1Field w).toNat = w.toNat % 2 ^ 22 := by
  rw [c1Field, BitVec.extractLsb'_toNat, Nat.shiftRight_zero]

theorem toNat_c2Field (w : Word) : (c2Field w).toNat = w.toNat % 2 ^ 17 := by
  rw [c2Field, BitVec.extractLsb'_toNat, Nat.shiftRight_zero]

theorem toNat_c3Field (w : Word) : (c3Field w).toNat = w.toNat % 2 ^ 12 := by
  rw [c3Field, BitVec.extractLsb'_toNat, Nat.shiftRight_zero]

theorem packRegs_fields (w : Word) :
    packRegs (opField w) (raField w) (rbField w) (rcField w) (c3Field w) = w := by
  refine BitVec.eq_of_toNat_eq ?_
  rw [toNat_packRegs, toNat_opField, val_raField, val_rbField, val_rcField, toNat_c3Field]
  omega

theorem packC2_fields (w : Word) : packC2 (opField w) (raField w) (rbField w) (c2Field w) = w := by
  refine BitVec.eq_of_toNat_eq ?_
  rw [toNat_packC2, toNat_opField, val_raField, val_rbField, toNat_c2Field]
  omega

theorem packC1_fields (w : Word) : packC1 (opField w) (raField w) (c1Field w) = w := by
  refine BitVec.eq_of_toNat_eq ?_
  rw [toNat_packC1, toNat_opField, val_raField, toNat_c1Field]
  omega

/-! ## A mask acts on each field -/

theorem opField_and (w m : Word) : opField (w &&& m) = opField w &&& opField m := BitVec.extractLsb'_and

theorem raField_and (w m : Word) : raField (w &&& m) = raField w &&& raField m := by
  rw [raField, BitVec.extractLsb'_and, BitVec.toFin_and, ← raField, ← raField]

theorem rbField_and (w m : Word) : rbField (w &&& m) = rbField w &&& rbField m := by
  rw [rbField, BitVec.extractLsb'_and, BitVec.toFin_and, ← rbField, ← rbField]

theorem rcField_and (w m : Word) : rcField (w &&& m) = rcField w &&& rcField m := by
  rw [rcField, BitVec.extractLsb'_and, BitVec.toFin_and, ← rcField, ← rcField]

theorem c3Field_and (w m : Word) : c3Field (w &&& m) = c3Field w &&& c3Field m := BitVec.extractLsb'_and

/-- A word under a mask that is written by fields. -/
theorem and_packRegs (w : Word) (op : BitVec 5) (ra rb rc : Reg) (c3 : BitVec 12) :
    w &&& packRegs op ra rb rc c3 =
      packRegs (opField w &&& op) (raField w &&& ra) (rbField w &&& rb) (rcField w &&& rc) (c3Field w &&& c3) := by
  rw [← packRegs_fields (w &&& packRegs op ra rb rc c3), opField_and, raField_and, rbField_and, rcField_and,
    c3Field_and, opField_packRegs, raField_packRegs, rbField_packRegs, rcField_packRegs, c3Field_packRegs]

@[simp] theorem op_and_ones (b : BitVec 5) : b &&& 31#5 = b := by revert b; decide

@[simp] theorem reg_and_ones (r : Reg) : r &&& 31 = r := by revert r; decide

@[simp] theorem reg_and_zero (r : Reg) : r &&& 0 = 0 := by revert r; decide

/-- `c3〈2..0〉` below zeros is `c3` with its other bits cleared (R76). -/
theorem zeros_append_condField (w : Word) : (0 : BitVec 9) ++ condField w = c3Field w &&& 7 := by
  refine BitVec.eq_of_toNat_eq ?_
  rw [toNat_append_eq, condField, BitVec.extractLsb'_toNat, BitVec.toNat_and]
  simpa using (Nat.and_two_pow_sub_one_eq_mod _ 3).symm

/-- `c3〈4..0〉` below zeros is `c3` with its other bits cleared (R78). -/
theorem zeros_append_countField (w : Word) : (0 : BitVec 7) ++ countField w = c3Field w &&& 31 := by
  refine BitVec.eq_of_toNat_eq ?_
  rw [toNat_append_eq, countField, BitVec.extractLsb'_toNat, BitVec.toNat_and]
  simpa using (Nat.and_two_pow_sub_one_eq_mod _ 5).symm

/-! ## What the encoder keeps of a word, by the fields that are encoded again

The operation code is given as the decoder tests it. -/

section
variable {w : Word} {op : BitVec 5} (hop : (opField w).toFin = op.toFin)
include hop

theorem packRegs_op : packRegs op 0 0 0 0 = w &&& 0xF8000000 := by
  cases BitVec.toFin_inj.mp hop
  rw [show (0xF8000000 : Word) = packRegs 31 0 0 0 0 from rfl, and_packRegs]
  simp

theorem packRegs_ra_rb : packRegs op (raField w) (rbField w) 0 0 = w &&& 0xFFFE0000 := by
  cases BitVec.toFin_inj.mp hop
  rw [show (0xFFFE0000 : Word) = packRegs 31 31 31 0 0 from rfl, and_packRegs]
  simp

theorem packRegs_ra_rc : packRegs op (raField w) 0 (rcField w) 0 = w &&& 0xFFC1F000 := by
  cases BitVec.toFin_inj.mp hop
  rw [show (0xFFC1F000 : Word) = packRegs 31 31 0 31 0 from rfl, and_packRegs]
  simp

theorem packRegs_ra_rb_rc : packRegs op (raField w) (rbField w) (rcField w) 0 = w &&& 0xFFFFF000 := by
  cases BitVec.toFin_inj.mp hop
  rw [show (0xFFFFF000 : Word) = packRegs 31 31 31 31 0 from rfl, and_packRegs]
  simp

theorem packShift_ra_rb_rc :
    packShift op (raField w) (rbField w) (rcField w) (countField w) = w &&& 0xFFFFF01F := by
  cases BitVec.toFin_inj.mp hop
  rw [show (0xFFFFF01F : Word) = packRegs 31 31 31 31 31 from rfl, and_packRegs, packShift, zeros_append_countField]
  simp

theorem packBranch_rb_rc :
    packBranch op 0 (rbField w) (rcField w) (Cond.ofBits (condField w)) = w &&& 0xF83FF007 := by
  cases BitVec.toFin_inj.mp hop
  rw [show (0xF83FF007 : Word) = packRegs 31 0 31 31 7 from rfl, and_packRegs, packBranch, Cond.toBits_ofBits,
    zeros_append_condField]
  simp

theorem packBranch_ra_rb_rc :
    packBranch op (raField w) (rbField w) (rcField w) (Cond.ofBits (condField w)) = w &&& 0xFFFFF007 := by
  cases BitVec.toFin_inj.mp hop
  rw [show (0xFFFFF007 : Word) = packRegs 31 31 31 31 7 from rfl, and_packRegs, packBranch, Cond.toBits_ofBits,
    zeros_append_condField]
  simp

theorem packC2_ra_rb : packC2 op (raField w) (rbField w) (c2Field w) = w &&& 0xFFFFFFFF := by
  cases BitVec.toFin_inj.mp hop
  rw [packC2_fields]
  exact BitVec.and_allOnes.symm

theorem packC1_ra : packC1 op (raField w) (c1Field w) = w &&& 0xFFFFFFFF := by
  cases BitVec.toFin_inj.mp hop
  rw [packC1_fields]
  exact BitVec.and_allOnes.symm

end

/-! ## From a word to an instruction and back -/

theorem rowBits_brOfCond (rb rc : Reg) (c : Cond) : rowBits (brOfCond rb rc c) = 0xF83FF007 := by cases c <;> rfl

theorem rowBits_brlOfCond (ra rb rc : Reg) (c : Cond) : rowBits (brlOfCond ra rb rc c) = 0xFFFFF007 := by
  cases c <;> rfl

/-- One goal per operation code, in their order (R80): the shape of its row is named. -/
theorem encode_decodeWord (w : Word) : encode (decodeWord w) = w &&& rowBits (decodeWord w) := by
  unfold decodeWord
  split <;> rename_i hop
  · exact packRegs_op hop
  · exact packC2_ra_rb hop
  · exact packC1_ra hop
  · exact packC2_ra_rb hop
  · exact packC1_ra hop
  · exact packC2_ra_rb hop
  · exact packC1_ra hop
  · exact packRegs_op hop
  · rw [encode_brOfCond, rowBits_brOfCond]
    exact packBranch_rb_rc hop
  · rw [encode_brlOfCond, rowBits_brlOfCond]
    exact packBranch_ra_rb_rc hop
  · exact packRegs_op hop
  · exact packRegs_op hop
  · exact packRegs_ra_rb_rc hop
  · exact packC2_ra_rb hop
  · exact packRegs_ra_rb_rc hop
  · exact packRegs_ra_rc hop
  · exact packRegs_ra_rb hop
  · exact packRegs_ra_rb hop
  · exact packRegs_op hop
  · exact packRegs_op hop
  · exact packRegs_ra_rb_rc hop
  · exact packC2_ra_rb hop
  · exact packRegs_ra_rb_rc hop
  · exact packC2_ra_rb hop
  · exact packRegs_ra_rc hop
  · exact packRegs_op hop
  · exact packShift_ra_rb_rc hop
  · exact packShift_ra_rb_rc hop
  · exact packShift_ra_rb_rc hop
  · exact packShift_ra_rb_rc hop
  · exact packRegs_op hop
  · exact packRegs_op hop
  · omega

theorem wellFormed_brOfCond (rb rc : Reg) (c : Cond) : (brOfCond rb rc c).wellFormed = true := by cases c <;> rfl

theorem wellFormed_brlOfCond (ra rb rc : Reg) (c : Cond) : (brlOfCond ra rb rc c).wellFormed = true := by
  cases c <;> rfl

theorem wellFormed_decodeWord (w : Word) : (decodeWord w).wellFormed = true := by
  unfold decodeWord
  split
  case h_9 => exact wellFormed_brOfCond ..
  case h_10 => exact wellFormed_brlOfCond ..
  case h_33 => omega
  all_goals rfl

/-- Settles O2, one lemma per shape of row. -/
theorem encodeDecodeKeepsRowBits : Obligations.EncodeDecodeKeepsRowBits :=
  fun w => ⟨encode_decodeWord w, wellFormed_decodeWord w⟩

/-! ## From an instruction to a word and back -/

theorem brOfCond_of_no_name (rb rc : Reg) {c : Cond} (h : c.hasBrName = false) : brOfCond rb rc c = .br rb rc c := by
  cases c with
  | never | reserved6 | reserved7 => rfl
  | always | zero | nonzero | plus | minus => cases h

theorem brlOfCond_of_no_name (ra rb rc : Reg) {c : Cond} (h : c.hasBrlName = false) :
    brlOfCond ra rb rc c = .brl ra rb rc c := by
  cases c with
  | reserved6 | reserved7 => rfl
  | never | always | zero | nonzero | plus | minus => cases h

/-- The fields read back from the encoded word are the operands; a condition is read under its own name (R112). -/
theorem decodeWord_encode {i : Instr} (h : i.wellFormed = true) : decodeWord (encode i) = i := by
  cases i with
  | br rb rc c =>
    have hc : c.hasBrName = false := by simpa [Instr.wellFormed] using h
    simp [decodeWord, encode, brOfCond_of_no_name rb rc hc]
  | brl ra rb rc c =>
    have hc : c.hasBrlName = false := by simpa [Instr.wellFormed] using h
    simp [decodeWord, encode, brlOfCond_of_no_name ra rb rc hc]
  | brAlways | brzr | brnz | brpl | brmi => simp [decodeWord, encode, brOfCond]
  | brlAlways | brlnv | brlzr | brlnz | brlpl | brlmi => simp [decodeWord, encode, brlOfCond]
  | nop | ld | ldr | st | str | la | lar | een | edi | add | addi | sub | neg | svi | ri | and | andi | or | ori
  | not | shr | shra | shl | shc | rfi | stop | reservedOp7 | reservedOp18 | reservedOp19 | reservedOp25 =>
    simp [decodeWord, encode]

/-- The decoder puts the four bytes together and leaves the rest (R65, R71). -/
theorem decode_bytesOfWord (w : Word) (rest : List Byte) :
    decode (bytesOfWord w ++ rest) = .ok (decodeWord w, rest) := by
  simp [decode, bytesOfWord, wordOfBytes_extract]

/-- Settles O1. -/
theorem decodeEncodeRoundTrip : Obligations.DecodeEncodeRoundTrip := by
  intro i rest h
  rw [decode_bytesOfWord, decodeWord_encode h]

/-! ## Bits no row names -/

/-- The row, and with it the mask, is chosen by the operation code alone (R80). -/
theorem rowBits_decodeWord_congr {w w' : Word} (h : opField w = opField w') :
    rowBits (decodeWord w) = rowBits (decodeWord w') := by
  unfold decodeWord
  rw [h]
  split
  case h_9 | h_10 => simp only [rowBits_brOfCond, rowBits_brlOfCond]
  all_goals rfl

/-- Every row names all five bits of the operation code. -/
theorem opField_rowBits (i : Instr) : opField (rowBits i) = 31#5 := by
  cases i <;> simp [rowBits, opField]

theorem opField_and_rowBits (w : Word) (i : Instr) : opField (w &&& rowBits i) = opField w := by
  rw [opField_and, opField_rowBits, op_and_ones]

/-- A word decodes as it does with the bits its row does not name cleared. -/
theorem decodeWord_and_rowBits (w : Word) : decodeWord (w &&& rowBits (decodeWord w)) = decodeWord w := by
  rw [← encode_decodeWord, decodeWord_encode (wellFormed_decodeWord w)]

/-- Settles O3: the two words have one operation code, so one row, and each decodes as its named bits do. -/
theorem unreadBitsAreIgnored : Obligations.UnreadBitsAreIgnored := by
  intro w w' h
  have hop : opField w' = opField w := by
    rw [← opField_and_rowBits w', ← h, opField_and_rowBits]
  rw [← decodeWord_and_rowBits w', rowBits_decodeWord_congr hop, ← h, decodeWord_and_rowBits]

/-! ## The decoder is total -/

/-- An instruction without operands has every word with its operation code (R80, R83). -/
theorem decodeWord_eq_iff_opField {i : Instr} (hwf : i.wellFormed = true) (hrow : rowBits i = 0xF8000000) (w : Word) :
    decodeWord w = i ↔ opField w = opField (encode i) := by
  constructor
  · rintro rfl
    rw [encode_decodeWord, opField_and_rowBits]
  · intro hop
    have hi : decodeWord (encode i) = i := decodeWord_encode hwf
    have hbits : encode i &&& 0xF8000000 = w &&& 0xF8000000 := by
      rw [← packRegs_op (congrArg BitVec.toFin hop), ← packRegs_op rfl]
    refine (unreadBitsAreIgnored (encode i) w ?_).trans hi
    rw [hi, hrow, hbits]

theorem opField_eq_iff_toNat_div (w : Word) (op : BitVec 5) : opField w = op ↔ w.toNat / 2 ^ 27 = op.toNat := by
  rw [← toNat_opField, BitVec.toNat_inj]

theorem decode_of_length {bs : List Byte} (h : 4 ≤ bs.length) : ∃ i, decode bs = .ok (i, bs.drop 4) := by
  match bs, h with
  | b0 :: b1 :: b2 :: b3 :: rest, _ => exact ⟨_, rfl⟩

theorem decode_tooShort {bs : List Byte} (h : bs.length < 4) : decode bs = .error .tooShort := by
  match bs, h with
  | [], _ | [_], _ | [_, _], _ | [_, _, _], _ => rfl

/-- Settles O4. -/
theorem decoderIsTotal : Obligations.DecoderIsTotal := by
  refine ⟨fun _ => decode_of_length, fun _ => decode_tooShort, fun w => ⟨?_, ?_, ?_, ?_⟩⟩
  · exact (decodeWord_eq_iff_opField rfl rfl w).trans (opField_eq_iff_toNat_div w 7)
  · exact (decodeWord_eq_iff_opField rfl rfl w).trans (opField_eq_iff_toNat_div w 18)
  · exact (decodeWord_eq_iff_opField rfl rfl w).trans (opField_eq_iff_toNat_div w 19)
  · exact (decodeWord_eq_iff_opField rfl rfl w).trans (opField_eq_iff_toNat_div w 25)

/-- Settles O5, by running the decoder on the words. -/
theorem specWordsDecode : Obligations.SpecWordsDecode := by
  unfold Obligations.SpecWordsDecode
  decide

/-! ## The assembly forms (R90 to R97) -/

theorem AsmForm.wellFormed_instr (f : AsmForm) : f.instr.wellFormed = true := by
  cases f with
  | br => exact wellFormed_brOfCond ..
  | brl => exact wellFormed_brlOfCond ..
  | _ => rfl

/-- Each form's word is packed from the fields its table lists, and the rest are 0 (R84). -/
theorem AsmForm.toNat_word (f : AsmForm) : f.word.toNat = formNumber f := by
  cases f with
  | ldAbs | ldDisp | stAbs | stDisp | laAbs | laDisp | addi | ori | andi => exact toNat_packC2 ..
  | ldr | str | lar => exact toNat_packC1 ..
  | add | sub | neg | or | and | not | nop | stop | een | edi | rfi | svi | ri => exact toNat_packRegs ..
  | shrConst | shrReg | shraConst | shraReg | shlConst | shlReg | shcConst | shcReg => exact toNat_packShift ..
  | br rb rc c3 =>
    rw [AsmForm.word, AsmForm.instr, encode_brOfCond, toNat_packBranch, Cond.toBits_ofBits]
    rfl
  | brl ra rb rc c3 =>
    rw [AsmForm.word, AsmForm.instr, encode_brlOfCond, toNat_packBranch, Cond.toBits_ofBits]
    rfl
  | brAlways | brzr | brnz | brpl | brmi | brlAlways | brlnv | brlzr | brlnz | brlpl | brlmi =>
    exact toNat_packBranch ..

/-- Settles O6: the forms' instructions are well-formed, so their words decode to them. -/
theorem assembledFormsDecode : Obligations.AssembledFormsDecode := by
  intro f
  have hdec := decodeEncodeRoundTrip f.instr [] f.wellFormed_instr
  exact ⟨f.toNat_word, by simpa [AsmForm.word] using hdec⟩

end Sys2Proof.Machine

/-! PROOFS. The reserved encodings (30_encoding.md R77, R81, R83; 44_interrupt.md R153): what each does under the
parameters, and that nothing else is refused. -/

namespace Sys2Proof.Machine

/-! ## The reserved conditions and operation codes under the parameters -/

section
variable {c : Cond} (hc : c.isReserved = true) (ra rb rc : Reg) (s : State)
include hc

/-- A condition without an arm is refused, or not taken where the parameter says so (R77). -/
theorem branch_of_reserved :
    branch c rb rc s = if s.params.reservedCond = .never then .next s else .refused .reservedCond := by
  unfold branch
  rw [branchTaken_of_reserved hc]
  split_ifs <;> rfl

theorem branchLink_of_reserved :
    branchLink c ra rb rc s =
      if s.params.reservedCond = .never then .next (s.writeReg ra s.pc) else .refused .reservedCond := by
  rw [branchLink_eq_branch, branch_of_reserved hc]
  split_ifs <;> rfl

end

/-- Settles O16: an untaken branch leaves the state after the fetch, to which `brl` adds the link. -/
theorem reservedCondsFollowParameter : Obligations.ReservedCondsFollowParameter := by
  intro ra rb rc c s hc
  have hres : c.isReserved = true := by rcases hc with rfl | rfl <;> rfl
  have hbr : exec (.br rb rc c) s = _ := branch_of_reserved hres rb rc s
  have hbrl : exec (.brl ra rb rc c) s = _ := branchLink_of_reserved hres ra rb rc s
  refine ⟨fun hp => ?_, fun hp => ?_⟩
  · simp [hbr, hbrl, hp]
  · rw [if_pos hp] at hbr hbrl
    obtain ⟨hregs, -, hframe⟩ := onlyRegs_writeReg s ra s.pc
    exact ⟨⟨s, hbr, nofun, fun _ => rfl, fun _ _ => rfl, fun _ => rfl, ⟨rfl, rfl, rfl⟩, ⟨rfl, rfl⟩,
        keepsSignals_refl s⟩,
      ⟨s.writeReg ra s.pc, hbrl, by simp, nofun, fun _ => rfl, hregs, hframe⟩⟩

theorem reservedOpcode_eq (s : State) :
    reservedOpcode s = if s.params.reservedOpcode = .nop then .next s else .refused .reservedOpcode := by
  unfold reservedOpcode
  cases s.params.reservedOpcode <;> rfl

/-- Settles O37: the four operation codes share one meaning. -/
theorem reservedOpcodesFollowParameter : Obligations.ReservedOpcodesFollowParameter := by
  intro i s hi
  have hexec : exec i s = reservedOpcode s := by rcases hi with rfl | rfl | rfl | rfl <;> rfl
  rw [hexec, reservedOpcode_eq]
  exact ⟨fun hp => if_neg (by simp [hp]), fun hp => if_pos hp⟩

/-! ## What completes and what is refused -/

section
variable {c : Cond} {s : State} (h : c.isReserved = true → s.params.reservedCond = .never) (ra rb rc : Reg)
include h

/-- A branch completes unless its condition has neither an arm nor a parameter's meaning (R76, R77). -/
theorem branch_completes : ∃ t, branch c rb rc s = .next t := by
  cases hc : c.isReserved with
  | true => exact ⟨s, by rw [branch_of_reserved hc, if_pos (h hc)]⟩
  | false =>
    obtain ⟨taken, htaken⟩ := condValue_of_not_reserved hc (s.readReg rc)
    rcases branch_cases c rb rc s with ⟨hnone, -⟩ | ⟨-, e⟩ | ⟨-, e⟩
    · simp [branchTaken_of_not_reserved hc, htaken] at hnone
    · exact ⟨_, e⟩
    · exact ⟨_, e⟩

theorem branchLink_completes : ∃ t, branchLink c ra rb rc s = .next t := by
  obtain ⟨t, ht⟩ := branch_completes h rb rc
  exact ⟨t.writeReg ra s.pc, by rw [branchLink_eq_branch, ht]; rfl⟩

end

theorem exec_completes {i : Instr} {s : State} (h : Executable i s.params) : ∃ t, exec i s = .next t := by
  cases i with
  | br rb rc c => exact branch_completes h rb rc
  | brl ra rb rc c => exact branchLink_completes h ra rb rc
  | brAlways rb rc => exact branch_completes (c := .always) nofun rb rc
  | brzr rb rc => exact branch_completes (c := .zero) nofun rb rc
  | brnz rb rc => exact branch_completes (c := .nonzero) nofun rb rc
  | brpl rb rc => exact branch_completes (c := .plus) nofun rb rc
  | brmi rb rc => exact branch_completes (c := .minus) nofun rb rc
  | brlAlways ra rb rc => exact branchLink_completes (c := .always) nofun ra rb rc
  | brlnv ra rb rc => exact branchLink_completes (c := .never) nofun ra rb rc
  | brlzr ra rb rc => exact branchLink_completes (c := .zero) nofun ra rb rc
  | brlnz ra rb rc => exact branchLink_completes (c := .nonzero) nofun ra rb rc
  | brlpl ra rb rc => exact branchLink_completes (c := .plus) nofun ra rb rc
  | brlmi ra rb rc => exact branchLink_completes (c := .minus) nofun ra rb rc
  | svi ra rb => exact ⟨_, if_neg h⟩
  | reservedOp7 | reservedOp18 | reservedOp19 | reservedOp25 => exact ⟨s, (reservedOpcode_eq s).trans (if_pos h)⟩
  | nop | ld | ldr | st | str | la | lar | een | edi | add | addi | sub | neg | ri | and | andi | or | ori | not | shr
  | shra | shl | shc | rfi | stop => exact ⟨_, rfl⟩

/-- Where the parameters give an instruction no meaning, its own refusal is the answer. -/
theorem exec_refused {i : Instr} {s : State} (h : ¬Executable i s.params) :
    exec i s = .refused .reservedOpcode ∨ exec i s = .refused .reservedCond ∨
      exec i s = .refused .sviSameRegister := by
  cases i with
  | br rb rc c =>
    obtain ⟨hc, hp⟩ := Classical.not_imp.mp h
    exact .inr (.inl ((branch_of_reserved hc rb rc s).trans (if_neg hp)))
  | brl ra rb rc c =>
    obtain ⟨hc, hp⟩ := Classical.not_imp.mp h
    exact .inr (.inl ((branchLink_of_reserved hc ra rb rc s).trans (if_neg hp)))
  | svi ra rb => exact .inr (.inr (if_pos (not_not.mp h)))
  | reservedOp7 | reservedOp18 | reservedOp19 | reservedOp25 => exact .inl ((reservedOpcode_eq s).trans (if_neg h))
  | _ => exact absurd trivial h

/-- Under the default parameters what has no meaning is what R83 lists. -/
theorem executable_default_iff (i : Instr) : Executable i Params.default ↔ i.reservedEncoding = false := by
  cases i with
  | br | brl | svi | reservedOp7 | reservedOp18 | reservedOp19 | reservedOp25 =>
    simp [Executable, Instr.reservedEncoding, Params.default]
  | _ => exact iff_of_true trivial rfl

/-- Settles O48. -/
theorem execCompletesUnlessReserved : Obligations.ExecCompletesUnlessReserved :=
  fun i _ => ⟨exec_completes, exec_refused, fun hp => hp ▸ executable_default_iff i⟩

theorem exec_refused_iff (i : Instr) (s : State) : (∃ r, exec i s = .refused r) ↔ ¬Executable i s.params := by
  refine ⟨fun ⟨r, hr⟩ h => ?_, fun h => ?_⟩
  · obtain ⟨t, ht⟩ := exec_completes h
    cases hr.symm.trans ht
  · rcases exec_refused h with e | e | e <;> exact ⟨_, e⟩

/-- Settles O47: only the fetch arm executes an instruction, and the fetch leaves the parameters alone. -/
theorem refusedExactlyWhenReserved : Obligations.RefusedExactlyWhenReserved := by
  intro s
  cases harm : s.sampleInputs.arm with
  | normalFetch =>
    rw [step_of_normalFetch harm, exec_refused_iff]
    simp
  | hardReset => simp [step_of_hardReset harm]
  | softReset => simp [step_of_softReset harm]
  | interruptEntry => simp [step_of_interruptEntry harm]
  | halted => simp [step_of_halted harm]

end Sys2Proof.Machine

/-! PROOFS. The loader (30_encoding.md R95): `.dc` places words one after the other from the location counter on. -/

namespace Sys2Proof.Machine

/-- Words written one after the other from an address on, the addresses modulo 2^32. -/
def placeWords (s : State) (a : Word) : List Word → State
  | [] => s
  | w :: ws => placeWords (s.writeWord a w) (a + 4) ws

/-- The loader places a word's bytes as a word write does (R53). -/
theorem Loader.emit_bytesOfWord (l : Loader) (w : Word) (bs : List Byte) :
    l.emit (bytesOfWord w ++ bs) =
      Loader.emit { l with loc := l.loc + 4, state := l.state.writeWord l.loc w } bs := by
  simp [bytesOfWord, Loader.emit, State.writeWord, BitVec.add_assoc]

theorem Loader.emit_words_state (l : Loader) (ws : List Word) :
    (l.emit (ws.flatMap bytesOfWord)).state = placeWords l.state l.loc ws := by
  induction ws generalizing l with
  | nil => rfl
  | cons w ws ih => rw [List.flatMap_cons, Loader.emit_bytesOfWord, ih]; rfl

theorem State.load_org_dc (s : State) (a : Word) (ws : List Word) :
    s.load [.directive (.org a), .directive (.dc ws)] = placeWords s a ws :=
  Loader.emit_words_state { loc := a, symbols := [], state := s } ws

/-- A byte at or past the end of the words, counted from their start, is as before. -/
theorem readByte_placeWords_other (s : State) (a : Word) (ws : List Word) {b : Word}
    (h : 4 * ws.length ≤ (b - a).toNat) : (placeWords s a ws).readByte b = s.readByte b := by
  induction ws generalizing s a with
  | nil => rfl
  | cons w ws ih =>
    rw [List.length_cons] at h
    have hrest : 4 * ws.length ≤ (b - (a + 4)).toNat := by bv_omega
    rw [placeWords, ih _ _ hrest]
    exact State.readByte_writeWord_other s w (by bv_omega) (by bv_omega) (by bv_omega) (by bv_omega)

/-- The words that follow a word leave it alone, unless they wrap around to it. -/
theorem readWord_placeWords_before (s : State) (a : Word) (ws : List Word) (h : 4 * (ws.length + 1) ≤ 2 ^ 32) :
    (placeWords s (a + 4) ws).readWord a = s.readWord a := by
  have hbyte (d : Word) (hd : d.toNat < 4) : (placeWords s (a + 4) ws).readByte (a + d) = s.readByte (a + d) :=
    readByte_placeWords_other _ _ _ (by bv_omega)
  have h0 : (placeWords s (a + 4) ws).readByte a = s.readByte a := by simpa using hbyte 0 (by decide)
  rw [readWord_eq, readWord_eq, h0, hbyte 1 (by decide), hbyte 2 (by decide), hbyte 3 (by decide)]

theorem readWord_placeWords (s : State) (a : Word) (ws : List Word) (hlen : 4 * ws.length ≤ 2 ^ 32) (k : Nat)
    (hk : k < ws.length) : (placeWords s a ws).readWord (a + BitVec.ofNat 32 (4 * k)) = ws[k] := by
  induction ws generalizing s a k with
  | nil => cases hk
  | cons w ws ih =>
    rw [List.length_cons] at hlen hk
    cases k with
    | zero =>
      have hfirst := readWord_placeWords_before (s.writeWord a w) a ws hlen
      simpa [placeWords] using hfirst
    | succ k =>
      have haddr : a + BitVec.ofNat 32 (4 * (k + 1)) = a + 4 + BitVec.ofNat 32 (4 * k) := by bv_omega
      rw [haddr]
      exact ih _ _ (by omega) k (by omega)

theorem State.writeWord_with_mem (s : State) (a v : Word) (m : Memory) :
    { s.writeWord a v with mem := m } = { s with mem := m } := by
  simp

theorem placeWords_only_mem (s : State) (a : Word) (ws : List Word) :
    placeWords s a ws = { s with mem := (placeWords s a ws).mem } := by
  induction ws generalizing s a with
  | nil => rfl
  | cons w ws ih => exact (ih (s.writeWord a w) (a + 4)).trans (State.writeWord_with_mem s a w _)

/-- Settles O60: loading the two lines is `placeWords`. -/
theorem loaderPlacesWords : Obligations.LoaderPlacesWords := by
  intro s a ws hlen
  rw [State.load_org_dc]
  exact ⟨readWord_placeWords s a ws hlen, fun b => readByte_placeWords_other s a ws, placeWords_only_mem s a ws⟩

end Sys2Proof.Machine

/-! PROOFS. Loads, stores and load address (40_load_store.md R100 to R105): where the word or the address comes from, and
what else stays. -/

namespace Sys2Proof.Machine

section
variable {i : Instr} {ra : Reg} {s : State}

/-- An instruction whose meaning is one register write changes that register only. -/
theorem regResult_of_writeReg {v : Word} (h : exec i s = .next (s.writeReg ra v)) : RegResult i ra v s :=
  ⟨s.writeReg ra v, h, State.readReg_writeReg_same s ra v, onlyRegs_writeReg s ra v⟩

/-- Both stores leave `R[ra]` at their address and change that word only (R53). -/
theorem storeResult_of_storeAddress {a : Word} (hi : (∃ rb c2, i = .st ra rb c2) ∨ ∃ c1, i = .str ra c1)
    (ha : storeAddress s i = some a) : StoreResult i a (s.readReg ra) s :=
  ⟨s.writeWord a (s.readReg ra), exec_eq_writeWord_of_store hi ha, wordAt_writeWord s a _, onlyWordAt_writeWord s a _⟩

end

/-- `disp` by its two cases, the field `rb` being 0 or not (R74). -/
theorem disp_cases (s : State) (rb : Reg) (c2 : BitVec 17) :
    (rb = 0 → disp s rb c2 = imm17 c2) ∧ (rb ≠ 0 → disp s rb c2 = s.readReg rb + imm17 c2) :=
  ⟨fun h => h ▸ disp_zero s c2, fun h => disp_base s h c2⟩

/-- Settles O8: the address is `disp`, and the four bytes there make up `readWord`. -/
theorem ldLoadsWordAtDisp : Obligations.LdLoadsWordAtDisp := by
  intro ra rb c2 s
  obtain ⟨hzero, hbase⟩ := disp_cases s rb c2
  exact ⟨toNat_packC2 .., disp s rb c2, hzero, hbase, regResult_of_writeReg rfl⟩

/-- Settles O9, as O8 with the address `rel` (R75). -/
theorem ldrLoadsWordAtRel : Obligations.LdrLoadsWordAtRel :=
  fun _ c1 s => ⟨toNat_packC1 .., rel s c1, rfl, regResult_of_writeReg rfl⟩

/-- Settles O10: `storeAddress` of `st` is `disp`. -/
theorem stStoresWordAtDisp : Obligations.StStoresWordAtDisp := by
  intro ra rb c2 s
  obtain ⟨hzero, hbase⟩ := disp_cases s rb c2
  refine ⟨toNat_packC2 .., hzero, hbase, fun a ha => ⟨(Option.some.inj ha).symm, ?_⟩⟩
  exact storeResult_of_storeAddress (.inl ⟨rb, c2, rfl⟩) ha

/-- Settles O11: `storeAddress` of `str` is `rel`. -/
theorem strStoresWordAtRel : Obligations.StrStoresWordAtRel := by
  intro ra c1 s
  refine ⟨toNat_packC1 .., fun a ha => ⟨(Option.some.inj ha).symm, ?_⟩⟩
  exact storeResult_of_storeAddress (.inr ⟨c1, rfl⟩) ha

/-- Settles O12: each store has an address, in every state. -/
theorem storesComplete : Obligations.StoresComplete :=
  ⟨fun _ rb c2 _ => storeResult_of_storeAddress (.inl ⟨rb, c2, rfl⟩) rfl,
    fun _ c1 _ => storeResult_of_storeAddress (.inr ⟨c1, rfl⟩) rfl⟩

/-- Settles O13: the two cases of `la` are those of `disp`. -/
theorem laAndLarLoadAddresses : Obligations.LaAndLarLoadAddresses := by
  refine ⟨fun ra rb c2 s => ?_, fun ra c1 s => ⟨toNat_packC1 .., regResult_of_writeReg rfl⟩⟩
  obtain ⟨hzero, hbase⟩ := disp_cases s rb c2
  have hla : RegResult (.la ra rb c2) ra (disp s rb c2) s := regResult_of_writeReg rfl
  exact ⟨toNat_packC2 .., fun h => hzero h ▸ hla, fun h => hbase h ▸ hla⟩

end Sys2Proof.Machine

/-! PROOFS. Branches (41_branch.md R110 to R112): the condition as a test of a number, what a branch leaves with link and
without, and the named forms as the general form. -/

namespace Sys2Proof.Machine

/-! ## The condition -/

theorem not_isReserved_of_ne {c : Cond} (h6 : c ≠ .reserved6) (h7 : c ≠ .reserved7) : ¬c.isReserved = true := by
  cases c with
  | reserved6 => exact absurd rfl h6
  | reserved7 => exact absurd rfl h7
  | _ => exact nofun

/-- Bit 31 is the sign of the two's complement number. -/
theorem getLsbD_31_eq_true_iff (v : Word) : v.getLsbD 31 = true ↔ v.toInt < 0 := by
  have hmsb : v.getLsbD 31 = decide (v.toInt < 0) := (BitVec.msb_eq_getLsbD_last v).symm.trans BitVec.msb_eq_toInt
  rw [hmsb, decide_eq_true_iff]

/-- A branch is taken exactly when its condition holds, whatever the parameter says (R76, R77). -/
theorem branchTaken_eq_some_true_iff (p : ReservedCond) (c : Cond) (v : Word) :
    branchTaken p c v = some true ↔ Taken c v := by
  cases c with
  | never | always | zero | nonzero => simp [branchTaken, condValue, Taken]
  | plus => simpa [branchTaken, condValue, Taken] using (getLsbD_31_eq_true_iff v).not
  | minus => simpa [branchTaken, condValue, Taken] using getLsbD_31_eq_true_iff v
  | reserved6 | reserved7 => cases p <;> simp [branchTaken, condValue, Taken]

/-! ## The frames -/

theorem onlyRegsAndPc_setPc (s : State) (v : Word) : OnlyRegsAndPc [] s (s.setPc v) :=
  ⟨fun _ _ => rfl, fun _ => rfl, ⟨rfl, rfl, rfl⟩, ⟨rfl, rfl⟩, keepsSignals_refl s⟩

/-- A register write after a change of `PC` adds that register to the frame. -/
theorem OnlyRegsAndPc.writeReg {s t : State} (h : OnlyRegsAndPc [] s t) (ra : Reg) (v : Word) :
    OnlyRegsAndPc [ra] s (t.writeReg ra v) := by
  obtain ⟨hregs, hframe⟩ := h
  obtain ⟨hother, -⟩ := onlyRegs_writeReg t ra v
  exact ⟨fun r hr => (hother r hr).trans (hregs r List.not_mem_nil), hframe⟩

/-! ## A branch and a branch with link, where they complete -/

section
variable {i : Instr} {c : Cond} {rb rc : Reg} {s : State} (h : c.isReserved = true → s.params.reservedCond = .never)
include h

theorem branchResult_of_branch (hexec : exec i s = branch c rb rc s) : BranchResult i c rb rc s := by
  have htaken := branchTaken_eq_some_true_iff s.params.reservedCond c (s.readReg rc)
  rcases branch_cases c rb rc s with ⟨-, e⟩ | ⟨hb, e⟩ | ⟨hb, e⟩
  · obtain ⟨t, ht⟩ := branch_completes h rb rc
    cases ht.symm.trans e
  · exact ⟨s.setPc (s.readReg rb), hexec.trans e, fun _ => rfl, fun hn => absurd (htaken.mp hb) hn,
      onlyRegsAndPc_setPc s _⟩
  · have hn : ¬Taken c (s.readReg rc) := by simp [← htaken, hb]
    exact ⟨s, hexec.trans e, fun ht => absurd ht hn, fun _ => rfl, onlyRegsAndPc_setPc s s.pc⟩

/-- The link is written last, so it changes neither the test nor the target (R111). -/
theorem linkResult_of_branchLink {ra : Reg} (hexec : exec i s = branchLink c ra rb rc s) :
    LinkResult i c ra rb rc s := by
  obtain ⟨t, ht, hpc, hpc', hframe⟩ := branchResult_of_branch (i := .br rb rc c) h rfl
  have hlink : exec i s = .next (t.writeReg ra s.pc) := by
    rw [hexec, branchLink_eq_branch]
    exact congrArg (mapNext _) ht
  exact ⟨t.writeReg ra s.pc, hlink, State.readReg_writeReg_same t ra s.pc, hpc, hpc', hframe.writeReg ra s.pc⟩

end

/-- Settles O14; the refusal is O16's. -/
theorem brBranchesOnCondition : Obligations.BrBranchesOnCondition := by
  intro rb rc c s
  refine ⟨by simpa [WordIs, encode] using toNat_packBranch 8 0 rb rc c, fun h6 h7 => ?_, fun hc hp => ?_⟩
  · exact branchResult_of_branch (fun hc => absurd hc (not_isReserved_of_ne h6 h7)) rfl
  · obtain ⟨hrefused, -⟩ := reservedCondsFollowParameter 0 rb rc c s hc
    exact (hrefused hp).1

/-- Settles O15; the refusal is O16's. -/
theorem brlLinksAndBranches : Obligations.BrlLinksAndBranches := by
  intro ra rb rc c s
  refine ⟨toNat_packBranch 9 ra rb rc c, fun h6 h7 => ?_, fun hc hp => ?_⟩
  · exact linkResult_of_branchLink (fun hc => absurd hc (not_isReserved_of_ne h6 h7)) rfl
  · obtain ⟨hrefused, -⟩ := reservedCondsFollowParameter ra rb rc c s hc
    exact (hrefused hp).2

/-! ## The named forms -/

theorem exec_brOfCond (rb rc : Reg) (c : Cond) (s : State) : exec (brOfCond rb rc c) s = branch c rb rc s := by
  cases c <;> rfl

theorem exec_brlOfCond (ra rb rc : Reg) (c : Cond) (s : State) :
    exec (brlOfCond ra rb rc c) s = branchLink c ra rb rc s := by
  cases c <;> rfl

/-- Settles O17: each form is `brOfCond` of its condition, which is not reserved. -/
theorem namedBrFormsBranch : Obligations.NamedBrFormsBranch := by
  intro rb rc s
  have hform (c : Cond) (hc : c.isReserved = true → s.params.reservedCond = .never) :
      BranchResult (brOfCond rb rc c) c rb rc s := branchResult_of_branch hc (exec_brOfCond rb rc c s)
  exact ⟨hform .always nofun, hform .zero nofun, hform .nonzero nofun, hform .plus nofun, hform .minus nofun⟩

/-- Settles O18: each form is `brlOfCond` of its condition, which is not reserved. -/
theorem namedBrlFormsLink : Obligations.NamedBrlFormsLink := by
  intro ra rb rc s
  have hform (c : Cond) (hc : c.isReserved = true → s.params.reservedCond = .never) :
      LinkResult (brlOfCond ra rb rc c) c ra rb rc s := linkResult_of_branchLink hc (exec_brlOfCond ra rb rc c s)
  exact ⟨hform .always nofun, hform .never nofun, hform .zero nofun, hform .nonzero nofun, hform .plus nofun,
    hform .minus nofun⟩

/-- Settles O19: both names of a branch share the packed word and the meaning. -/
theorem namedFormsAreTheGeneralForm : Obligations.NamedFormsAreTheGeneralForm :=
  fun ra rb rc c s => ⟨⟨encode_brOfCond rb rc c, exec_brOfCond rb rc c s⟩,
    encode_brlOfCond ra rb rc c, exec_brlOfCond ra rb rc c s⟩

end Sys2Proof.Machine

/-! PROOFS. Arithmetic and logic (42_arithmetic.md R120 to R130): results as integers modulo 2^32 and bit by bit, and what
else stays. -/

namespace Sys2Proof.Machine

/-! ## Words of the two formats, and a result given bit by bit -/

/-- A register form without a count: the field `c3` adds nothing. -/
theorem toNat_packRegs_no_c3 (op : BitVec 5) (ra rb rc : Reg) :
    (packRegs op ra rb rc 0).toNat = op.toNat * 2 ^ 27 + ra.val * 2 ^ 22 + rb.val * 2 ^ 17 + rc.val * 2 ^ 12 := by
  simpa using toNat_packRegs op ra rb rc 0

/-- `neg` and `not`: the field `rb` adds nothing either. -/
theorem toNat_packRegs_no_rb_c3 (op : BitVec 5) (ra rc : Reg) :
    (packRegs op ra 0 rc 0).toNat = op.toNat * 2 ^ 27 + ra.val * 2 ^ 22 + rc.val * 2 ^ 12 := by
  simpa using toNat_packRegs_no_c3 op ra 0 rc

section
variable {i : Instr} {ra : Reg} {s : State}

/-- As `regResult_of_writeReg`, for a result known by its bits. -/
theorem regBitsResult_of_writeReg {v : Word} {bit : Nat → Bool} (h : exec i s = .next (s.writeReg ra v))
    (hbit : ∀ k, k < 32 → v.getLsbD k = bit k) : RegBitsResult i ra bit s := by
  obtain ⟨t, ht, hv, hframe⟩ := regResult_of_writeReg h
  exact ⟨t, ht, fun k hk => hv ▸ hbit k hk, hframe⟩

end

/-! ## Sums, differences and negatives modulo 2^32 -/

/-- The immediate as an integer, brought to a word, is its sign extension (R11). -/
theorem ofInt_toInt_eq_imm17 (c2 : BitVec 17) : BitVec.ofInt 32 c2.toInt = imm17 c2 := rfl

theorem ofInt_toInt_sub (v w : Word) : BitVec.ofInt 32 (v.toInt - w.toInt) = v - w := by
  rw [Int.sub_eq_add_neg, BitVec.ofInt_add, BitVec.ofInt_neg, BitVec.ofInt_toInt, BitVec.ofInt_toInt,
    BitVec.sub_eq_add_neg]

/-- Settles O20: reduction modulo 2^32 goes through a sum. -/
theorem addAndAddiWrap : Obligations.AddAndAddiWrap := by
  refine ⟨fun ra rb rc s => ⟨toNat_packRegs_no_c3 .., ?_⟩, fun ra rb c2 s => ⟨toNat_packC2 .., ?_⟩⟩
  · rw [BitVec.ofInt_add, BitVec.ofInt_toInt, BitVec.ofInt_toInt]
    exact regResult_of_writeReg rfl
  · rw [BitVec.ofInt_add, BitVec.ofInt_toInt, ofInt_toInt_eq_imm17]
    exact regResult_of_writeReg rfl

/-- Settles O21; the model's `neg` is the difference from 0. -/
theorem subAndNegWrap : Obligations.SubAndNegWrap := by
  refine ⟨fun ra rb rc s => ⟨toNat_packRegs_no_c3 .., ?_⟩, fun ra rc s => ⟨toNat_packRegs_no_rb_c3 .., ?_⟩⟩
  · rw [ofInt_toInt_sub]
    exact regResult_of_writeReg rfl
  · rw [BitVec.ofInt_neg, BitVec.ofInt_toInt, ← BitVec.zero_sub]
    exact regResult_of_writeReg rfl

/-! ## Logic, bit by bit -/

/-- Settles O22: a bit of a conjunction is the conjunction of the bits, those of the immediate being O7's. -/
theorem andAndAndiBitwise : Obligations.AndAndAndiBitwise := by
  refine ⟨fun ra rb rc s => ⟨toNat_packRegs_no_c3 .., ?_⟩, fun ra rb c2 s => ⟨toNat_packC2 .., ?_⟩⟩
  · exact regBitsResult_of_writeReg rfl fun _ _ => BitVec.getLsbD_and
  · refine regBitsResult_of_writeReg rfl fun k hk => ?_
    rw [BitVec.getLsbD_and, getLsbD_imm17 c2 hk]

/-- Settles O23, as O22 with disjunctions. -/
theorem orAndOriBitwise : Obligations.OrAndOriBitwise := by
  refine ⟨fun ra rb rc s => ⟨toNat_packRegs_no_c3 .., ?_⟩, fun ra rb c2 s => ⟨toNat_packC2 .., ?_⟩⟩
  · exact regBitsResult_of_writeReg rfl fun _ _ => BitVec.getLsbD_or
  · refine regBitsResult_of_writeReg rfl fun k hk => ?_
    rw [BitVec.getLsbD_or, getLsbD_imm17 c2 hk]

/-- Settles O24: every bit below the width is complemented. -/
theorem notComplements : Obligations.NotComplements := by
  refine fun ra rc s => ⟨toNat_packRegs_no_rb_c3 .., regBitsResult_of_writeReg rfl fun k hk => ?_⟩
  rw [BitVec.getLsbD_not, decide_eq_true hk, Bool.true_and]

end Sys2Proof.Machine

/-! PROOFS. Shifts (43_shift.md R140 to R145): the count, and each shift as arithmetic and bit by bit. -/

namespace Sys2Proof.Machine

/-! ## The count -/

/-- The low five bits of a register are its value modulo 32 (R78). -/
theorem shiftCount_eq_countOf (s : State) (rc : Reg) (c3 : BitVec 5) : shiftCount s rc c3 = countOf s rc c3 := by
  unfold shiftCount countOf
  rw [BitVec.extractLsb'_toNat, Nat.shiftRight_zero]

theorem countOf_lt (s : State) (rc : Reg) (c3 : BitVec 5) : countOf s rc c3 < 32 :=
  shiftCount_eq_countOf s rc c3 ▸ shiftCount_lt s rc c3

/-! ## The shift operations as arithmetic -/

theorem shiftRight_eq_ofNat_div (v : Word) (n : Nat) : shiftRight v n = BitVec.ofNat 32 (v.toNat / 2 ^ n) := by
  rw [← Nat.shiftRight_eq_div_pow, ← BitVec.toNat_ushiftRight, BitVec.ofNat_toNat, BitVec.setWidth_eq, shiftRight]

/-- Division of integers by a positive number rounds toward minus infinity, as the shift does. -/
theorem shiftRightArith_eq_ofInt_div (v : Word) (n : Nat) :
    shiftRightArith v n = BitVec.ofInt 32 (v.toInt / 2 ^ n) := by
  rw [shiftRightArith, BitVec.sshiftRight, Int.shiftRight_eq_div_pow, Nat.cast_pow, Nat.cast_ofNat]

theorem shiftLeft_eq_ofNat_mul (v : Word) (n : Nat) : shiftLeft v n = BitVec.ofNat 32 (v.toNat * 2 ^ n) := by
  rw [← Nat.shiftLeft_eq]
  rfl

/-! ## The shift operations bit by bit -/

theorem getLsbD_shiftRight (v : Word) (n k : Nat) :
    (shiftRight v n).getLsbD k = if k + n < 32 then v.getLsbD (k + n) else false := by
  rw [shiftRight, BitVec.getLsbD_ushiftRight, Nat.add_comm n k]
  split
  case isTrue => rfl
  case isFalse h => exact BitVec.getLsbD_of_ge v _ (Nat.le_of_not_lt h)

theorem getLsbD_shiftRightArith (v : Word) (n : Nat) {k : Nat} (hk : k < 32) :
    (shiftRightArith v n).getLsbD k = if k + n < 32 then v.getLsbD (k + n) else v.getLsbD 31 := by
  rw [shiftRightArith, BitVec.getLsbD_sshiftRight, BitVec.msb_eq_getLsbD_last, Nat.add_comm n k]
  simp [hk]

theorem getLsbD_shiftLeft (v : Word) (n : Nat) {k : Nat} (hk : k < 32) :
    (shiftLeft v n).getLsbD k = if k < n then false else v.getLsbD (k - n) := by
  rw [shiftLeft, BitVec.getLsbD_shiftLeft]
  by_cases h : k < n <;> simp [hk, h]

@[simp] theorem rotateLeft_zero (v : Word) : rotateLeft v 0 = v := rfl

/-- The model's rotation is the library's, a count of 0 (R144, D12) included. -/
theorem rotateLeft_eq (v : Word) {n : Nat} (hn : n < 32) : rotateLeft v n = v.rotateLeft n := by
  rw [BitVec.rotateLeft_eq_rotateLeftAux_of_lt hn, BitVec.rotateLeftAux, rotateLeft]
  split
  case isTrue h =>
    rw [h, Nat.sub_zero, BitVec.shiftLeft_zero, BitVec.ushiftRight_eq_zero le_rfl, BitVec.or_zero]
  case isFalse => rfl

/-- Bit `k` comes from `n` places below it, counted around the word. -/
theorem getLsbD_rotateLeft (v : Word) {n k : Nat} (hn : n < 32) (hk : k < 32) :
    (rotateLeft v n).getLsbD k = v.getLsbD ((k + (32 - n)) % 32) := by
  rw [rotateLeft_eq v hn, BitVec.getLsbD_rotateLeft, Nat.mod_eq_of_lt hn]
  by_cases h : k < n
  · have hsrc : (k + (32 - n)) % 32 = 32 - n + k := by omega
    simp [h, hsrc]
  · have hsrc : (k + (32 - n)) % 32 = k - n := by omega
    simp [h, hk, hsrc]

/-! ## The instructions -/

section
variable {i : Instr} {ra rb rc : Reg} {c3 : BitVec 5} {s : State}

/-- A shift leaves `f` of `R[rb]` and the count (R78) in `R[ra]`. -/
theorem exec_of_shift {f : Word → Nat → Word}
    (h : exec i s = .next (s.writeReg ra (f (s.readReg rb) (shiftCount s rc c3)))) :
    exec i s = .next (s.writeReg ra (f (s.readReg rb) (countOf s rc c3))) :=
  shiftCount_eq_countOf s rc c3 ▸ h

theorem exec_shr : exec (.shr ra rb rc c3) s = .next (s.writeReg ra (shiftRight (s.readReg rb) (countOf s rc c3))) :=
  exec_of_shift rfl

theorem exec_shra :
    exec (.shra ra rb rc c3) s = .next (s.writeReg ra (shiftRightArith (s.readReg rb) (countOf s rc c3))) :=
  exec_of_shift rfl

theorem exec_shl : exec (.shl ra rb rc c3) s = .next (s.writeReg ra (shiftLeft (s.readReg rb) (countOf s rc c3))) :=
  exec_of_shift rfl

theorem exec_shc : exec (.shc ra rb rc c3) s = .next (s.writeReg ra (rotateLeft (s.readReg rb) (countOf s rc c3))) :=
  exec_of_shift rfl

end

/-- Settles O25: the logical shift is the quotient of the unsigned number (R140). -/
theorem shrShiftsInZeros : Obligations.ShrShiftsInZeros := by
  refine fun ra rb rc c3 s => ⟨toNat_packShift 26 ra rb rc c3, ?_, ?_⟩
  · rw [← shiftRight_eq_ofNat_div]
    exact regResult_of_writeReg exec_shr
  · exact regBitsResult_of_writeReg exec_shr fun k _ => getLsbD_shiftRight _ _ k

/-- Settles O26: the arithmetic shift is the floor of the signed quotient (R141). -/
theorem shraShiftsInSign : Obligations.ShraShiftsInSign := by
  refine fun ra rb rc c3 s => ⟨toNat_packShift 27 ra rb rc c3, ?_, ?_⟩
  · rw [← shiftRightArith_eq_ofInt_div]
    exact regResult_of_writeReg exec_shra
  · exact regBitsResult_of_writeReg exec_shra fun _ hk => getLsbD_shiftRightArith _ _ hk

/-- Settles O27: the shift to the left is the product, cut to 32 bits (R142). -/
theorem shlMultiplies : Obligations.ShlMultiplies := by
  refine fun ra rb rc c3 s => ⟨toNat_packShift 28 ra rb rc c3, ?_, ?_⟩
  · rw [← shiftLeft_eq_ofNat_mul]
    exact regResult_of_writeReg exec_shl
  · exact regBitsResult_of_writeReg exec_shl fun _ hk => getLsbD_shiftLeft _ _ hk

/-- Settles O28: a count is below 32, so the bits that leave at the top are those that enter at the bottom. -/
theorem shcRotates : Obligations.ShcRotates := by
  refine fun ra rb rc c3 s => ⟨toNat_packShift 29 ra rb rc c3, ?_, fun h0 => ?_⟩
  · exact regBitsResult_of_writeReg exec_shc fun _ hk => getLsbD_rotateLeft _ (countOf_lt s rc c3) hk
  · rw [← rotateLeft_zero (s.readReg rb), ← h0]
    exact regResult_of_writeReg exec_shc

end Sys2Proof.Machine

/-! PROOFS. Interrupt instructions (44_interrupt.md R150 to R154): the request taken after `een` and `rfi`, the interrupt
state saved by `svi` and restored by `ri`. -/

namespace Sys2Proof.Machine

/-! ## Halves of a word, and the saved interrupt state -/

/-- A second low half hides the first. -/
theorem withLowHalf_withLowHalf (v : Word) (lo lo' : BitVec 16) :
    withLowHalf (withLowHalf v lo) lo' = withLowHalf v lo' := by
  rw [withLowHalf, upperHalf_withLowHalf, withLowHalf]

@[simp] theorem State.readReg_writeRegLow_same (s : State) (r : Reg) (lo : BitVec 16) :
    (s.writeRegLow r lo).readReg r = withLowHalf (s.readReg r) lo :=
  State.readReg_writeReg_same s r _

theorem exec_svi_of_ne {ra rb : Reg} (h : ra ≠ rb) (s : State) :
    exec (.svi ra rb) s = .next ((s.writeRegLow ra (lowHalf s.ii)).writeReg rb s.ipc) :=
  if_neg h

theorem exec_svi_of_eq {ra rb : Reg} (h : ra = rb) (s : State) : exec (.svi ra rb) s = .refused .sviSameRegister :=
  if_pos h

/-- If `svi` completes, its registers differ (R153, D6): they hold `II〈15..0〉` below the kept upper half, and `IPC`; `II`
stays. -/
theorem readReg_of_exec_svi {ra rb : Reg} {s t : State} (h : exec (.svi ra rb) s = .next t) :
    t.readReg ra = withLowHalf (s.readReg ra) (lowHalf s.ii) ∧ t.readReg rb = s.ipc ∧ t.ii = s.ii := by
  by_cases hne : ra = rb
  · rw [exec_svi_of_eq hne] at h
    cases h
  · rw [exec_svi_of_ne hne] at h
    cases h
    refine ⟨?_, State.readReg_writeReg_same _ rb _, rfl⟩
    rw [State.readReg_writeReg_other _ _ hne, State.readReg_writeRegLow_same]

/-- Settles O34: the low half of `R[ra]` is the saved one, and the upper half of `II` was never touched. -/
theorem sviThenRiRestores : Obligations.SviThenRiRestores := by
  intro ra rb s t lo v hsvi
  obtain ⟨hra, hrb, hii⟩ := readReg_of_exec_svi hsvi
  refine ⟨_, rfl, ?_, hrb⟩
  calc withLowHalf (withLowHalf t.ii lo) (lowHalf (t.readReg ra))
      = withLowHalf t.ii (lowHalf (t.readReg ra)) := withLowHalf_withLowHalf t.ii lo _
    _ = withLowHalf s.ii (lowHalf s.ii) := by rw [hra, lowHalf_withLowHalf, hii]
    _ = s.ii := withLowHalf_lowHalf s.ii

/-! ## The request that is up after an instruction -/

/-- A request that is up where interrupts are enabled is taken before the next fetch (R171, R174). -/
theorem step_takes_interrupt {s : State} (hie : s.ie = true) (hrun : s.run = true) (hrst : s.sampleInputs.rst = false)
    (hireq : s.sampleInputs.ireq = true) :
    ∃ u, step s = .next u ∧ u.ipc = s.pc ∧ u.pc.toNat = 16 * s.sampleInputs.isrcVect.toNat := by
  have harm : s.sampleInputs.arm = .interruptEntry :=
    arm_eq_interruptEntry.mpr ⟨by simpa using hrun, hrst, hireq, by simpa using hie⟩
  refine ⟨_, step_of_interruptEntry harm, by simp, ?_⟩
  rw [State.enterInterrupt_pc, toNat_ivect, Nat.mul_comm]

/-- Settles O29. -/
theorem eenEnables : Obligations.EenEnables :=
  fun s => ⟨rfl, s.setIe true, rfl, rfl, fun _ _ => rfl, rfl, fun _ => rfl, rfl, rfl, ⟨rfl, rfl⟩, keepsSignals_refl s,
    step_takes_interrupt rfl⟩

/-- Settles O31: `PC` is the old `IPC`, so the entry saves that address again. -/
theorem rfiReturns : Obligations.RfiReturns :=
  fun s => ⟨rfl, s.returnFromInterrupt, rfl, rfl, rfl, fun _ _ => rfl, fun _ => rfl, rfl, rfl, ⟨rfl, rfl⟩,
    keepsSignals_refl s, step_takes_interrupt rfl⟩

/-- The guard of the interrupt entry asks for `IE` (R171). -/
theorem arm_ne_interruptEntry_of_ie {s : State} (hie : s.ie = false) : s.sampleInputs.arm ≠ .interruptEntry := by
  intro harm
  obtain ⟨-, -, -, hset⟩ := arm_eq_interruptEntry.mp harm
  simp [hie] at hset

/-- Settles O30: that only `een` and `rfi` set `IE` again is O52's. -/
theorem ediDisables : Obligations.EdiDisables := by
  refine fun s => ⟨rfl, s.setIe false, rfl, rfl, fun _ _ => rfl, rfl, fun _ => rfl, rfl, rfl, ⟨rfl, rfl⟩,
    keepsSignals_refl s, fun u hie => ⟨arm_ne_interruptEntry_of_ie hie, fun v hstep hset => ?_⟩⟩
  obtain ⟨hsets, -⟩ := ieWritersAreThese u v hstep
  exact (hsets hie hset).2

/-! ## `svi` and `ri` with their frames -/

/-- `svi` and `ri`: the fields `rc` and `c3` add nothing. -/
theorem toNat_packRegs_no_rc_c3 (op : BitVec 5) (ra rb : Reg) :
    (packRegs op ra rb 0 0).toNat = op.toNat * 2 ^ 27 + ra.val * 2 ^ 22 + rb.val * 2 ^ 17 := by
  simpa using toNat_packRegs_no_c3 op ra rb 0

/-- A further register write adds that register to the frame. -/
theorem OnlyRegs.writeReg {rs : List Reg} {s t : State} (h : OnlyRegs rs s t) (r : Reg) (v : Word) :
    OnlyRegs (rs ++ [r]) s (t.writeReg r v) := by
  obtain ⟨hregs, hframe⟩ := h
  refine ⟨fun q hq => ?_, hframe⟩
  obtain ⟨hrs, hr⟩ : q ∉ rs ∧ q ≠ r := by simpa using hq
  exact (State.readReg_writeReg_other t v hr).trans (hregs q hrs)

/-- Settles O32; the registers' contents are those of `readReg_of_exec_svi`. -/
theorem sviSavesInterruptState : Obligations.SviSavesInterruptState := by
  refine fun ra rb s => ⟨toNat_packRegs_no_rc_c3 .., fun hne => ?_, fun heq => exec_svi_of_eq heq s⟩
  have hexec := exec_svi_of_ne hne s
  obtain ⟨hra, hrb, -⟩ := readReg_of_exec_svi hexec
  refine ⟨_, hexec, ?_, ?_, hrb, (onlyRegs_writeReg s ra _).writeReg rb s.ipc⟩
  · rw [hra]
    exact lowHalf_withLowHalf (s.readReg ra) (lowHalf s.ii)
  · rw [hra, upperHalf_withLowHalf]

/-- Settles O33: both transfers only read the register file. -/
theorem riRestoresInterruptState : Obligations.RiRestoresInterruptState :=
  fun ra rb s => ⟨toNat_packRegs_no_rc_c3 .., (s.setIiLow (lowHalf (s.readReg ra))).setIpc (s.readReg rb), rfl,
    lowHalf_withLowHalf s.ii _, upperHalf_withLowHalf s.ii _, rfl, fun _ _ => rfl, rfl, fun _ => rfl, rfl, ⟨rfl, rfl⟩,
    keepsSignals_refl s⟩

end Sys2Proof.Machine

/-! PROOFS. Miscellaneous instructions (45_misc.md R160, R161): the ranges of words that are `nop` and `stop`, and what a
step from a halted machine can be. -/

namespace Sys2Proof.Machine

/-- Operation code 0 (R160): the words below 2^27. -/
theorem decodeWord_eq_nop_iff (w : Word) : decodeWord w = .nop ↔ w.toNat < 0x08000000 :=
  calc decodeWord w = .nop
      ↔ opField w = 0 := decodeWord_eq_iff_opField rfl rfl w
    _ ↔ w.toNat / 2 ^ 27 = 0 := opField_eq_iff_toNat_div w 0
    _ ↔ w.toNat < 0x08000000 := by omega

/-- Operation code 31 (R161), the largest: the words from 31 * 2^27 on. -/
theorem decodeWord_eq_stop_iff (w : Word) : decodeWord w = .stop ↔ 0xF8000000 ≤ w.toNat := by
  have hw := w.isLt
  calc decodeWord w = .stop
      ↔ opField w = 31 := decodeWord_eq_iff_opField rfl rfl w
    _ ↔ w.toNat / 2 ^ 27 = 31 := opField_eq_iff_toNat_div w 31
    _ ↔ 0xF8000000 ≤ w.toNat := by omega

/-- A halted machine's only step is the hard reset, under `Strt` (R161, R206). -/
theorem step_of_not_run {s t : State} (hrun : s.run = false) (hstep : step s = .next t) :
    s.sampleInputs.strt = true ∧ t = s.sampleInputs.hardReset := by
  obtain ⟨hhalted, -⟩ := runWritersAreThese s t hstep
  obtain ⟨harm, -⟩ := hhalted hrun
  rw [step_of_hardReset harm] at hstep
  cases hstep
  exact ⟨(arm_eq_hardReset.mp harm).2, rfl⟩

/-- Settles O36: `stop` is `setRun false`, which leaves a halted machine. -/
theorem stopHalts : Obligations.StopHalts :=
  ⟨decodeWord_eq_stop_iff, fun s => ⟨s.setRun false, rfl, rfl, rfl, fun _ _ => rfl, rfl, fun _ => rfl, ⟨rfl, rfl, rfl⟩,
    keepsSignals_refl s, fun _ => step_of_not_run rfl⟩⟩

/-- Settles O35. -/
theorem nopDoesNothing : Obligations.NopDoesNothing :=
  ⟨fun _ => rfl, decodeWord_eq_nop_iff⟩

end Sys2Proof.Machine

/-! PROOFS. The interrupt entry (60_exceptions.md R171 to R178): its effect and frame, and the return that undoes it. -/

namespace Sys2Proof.Machine

/-- `rfi` after an entry (R152, R174): the entry put `PC` in `IPC`, so `PC` is back and `IE` is 1. -/
theorem exec_rfi_enterInterrupt (s : State) :
    ∃ u, exec .rfi s.enterInterrupt = .next u ∧ u.pc = s.pc ∧ u.ie = true ∧ KeepsRegsBut [] s u ∧ KeepsMemory s u ∧
      u.run = s.run :=
  ⟨s.enterInterrupt.returnFromInterrupt, rfl, rfl, rfl, fun _ _ => rfl, fun _ => rfl, rfl⟩

/-- Settles O50: sampling changes no item named here, and `IE` was 1 because the entry's guard asks for it (R171). -/
theorem interruptThenRfiResumes : Obligations.InterruptThenRfiResumes := by
  intro s t harm hstep
  obtain ⟨-, -, -, hsampled⟩ := arm_eq_interruptEntry.mp harm
  have hie : s.ie = true := by simpa using hsampled
  rw [step_of_interruptEntry harm] at hstep
  cases hstep
  simpa [hie, KeepsRegsBut, KeepsMemory] using exec_rfi_enterInterrupt s.sampleInputs

/-- Settles O45: the guard (R171) leads to `enterInterrupt` of the sampled state, whose items are then read off. -/
theorem interruptEntryStep : Obligations.InterruptEntryStep := by
  intro s hrun hrst hireq hie
  have harm : s.sampleInputs.arm = .interruptEntry :=
    arm_eq_interruptEntry.mpr ⟨by simpa using hrun, hrst, hireq, by simpa using hie⟩
  have hpc : s.sampleInputs.enterInterrupt.pc.toNat = 16 * s.sampleInputs.isrcVect.toNat := by
    rw [State.enterInterrupt_pc, toNat_ivect, Nat.mul_comm]
  have hlow : s.sampleInputs.enterInterrupt.ii.extractLsb' 0 16 = s.sampleInputs.isrcInfo :=
    lowHalf_withLowHalf s.sampleInputs.ii s.sampleInputs.isrcInfo
  have hhigh : s.sampleInputs.enterInterrupt.ii.extractLsb' 16 16 = s.ii.extractLsb' 16 16 := by
    rw [State.enterInterrupt_ii, upperHalf_withLowHalf, State.sampleInputs_ii]
  refine ⟨s.sampleInputs.enterInterrupt, step_of_interruptEntry harm, by simp, hlow, hhigh, rfl, hpc, rfl, by simp, ?_⟩
  simp [KeepsRegsBut, KeepsMemory, KeepsRunAndIr]

end Sys2Proof.Machine

/-! PROOFS. The resets and the halted machine (70_reset_and_hazards.md R200 to R206): what each reset step leaves, the two
resets in a row, and the one fault. -/

namespace Sys2Proof.Machine

/-! ## One reset step -/

/-- The guard of the hard reset (R200) on the state before sampling, which does not move `Run`. -/
theorem step_hardReset {s : State} (hrun : s.run = false) (hstrt : s.sampleInputs.strt = true) :
    step s = .next s.sampleInputs.hardReset :=
  step_of_hardReset (arm_eq_hardReset.mpr ⟨by simpa using hrun, hstrt⟩)

/-- The guard of the soft reset (R201) on the state before sampling; `ireq` and `IE` are not in it (R182). -/
theorem step_softReset {s : State} (hrun : s.run = true) (hrst : s.sampleInputs.rst = true) :
    step s = .next s.sampleInputs.softReset :=
  step_of_softReset (arm_eq_softReset.mpr ⟨by simpa using hrun, hrst⟩)

/-- Settles O43: the step is `hardReset` of the sampled state, whose items are then read off. -/
theorem hardResetStep : Obligations.HardResetStep := by
  intro s hrun hstrt
  refine ⟨s.sampleInputs.hardReset, step_hardReset hrun hstrt, rfl, rfl, State.hardReset_readReg _, ?_⟩
  simp [KeepsMemory, KeepsInterruptState, KeepsSignals]

/-- Settles O44: the step is `softReset` of the sampled state, whose items are then read off. -/
theorem softResetStep : Obligations.SoftResetStep := by
  intro s hrun hrst
  refine ⟨s.sampleInputs.softReset, step_softReset hrun hrst, rfl, rfl, rfl, ?_⟩
  simp [KeepsRegsBut, KeepsMemory, KeepsRunAndIr]

/-! ## Both resets -/

/-- `Rst` is a latch (R39): no input takes it down. -/
theorem State.sampleInputs_rst_of_rst {s : State} (hrst : s.rst = true) : s.sampleInputs.rst = true := by
  cases henv : s.env with
  | nil => rwa [State.sampleInputs_nil s henv]
  | cons e rest => simp [State.sampleInputs_cons s e rest henv, hrst]

/-- Settles O49: the hard reset sets `Run` and leaves `Rst` up, which is the guard of the soft reset at the next step. -/
theorem hardThenSoftReset : Obligations.HardThenSoftReset := by
  intro s hrun hstrt hrst
  have hlatched : s.sampleInputs.hardReset.sampleInputs.rst = true := State.sampleInputs_rst_of_rst hrst
  refine ⟨s.sampleInputs.hardReset, s.sampleInputs.hardReset.sampleInputs.softReset, step_hardReset hrun hstrt, hrst,
    by simp, step_softReset rfl hlatched, rfl, ?_⟩
  simp [KeepsMemory]

/-- The state after reset has its registers as a hard reset leaves them (R203). -/
theorem State.reset_readReg (r : Reg) : State.reset.readReg r = 0 := State.hardReset_readReg State.reset r

/-- Settles O59: the values stand in `State.reset`, whose memory is canonical by `wf_reset`. -/
theorem resetState : Obligations.ResetState :=
  ⟨rfl, State.reset_readReg, rfl, rfl, rfl, State.wf_reset, rfl⟩

/-! ## The one fault -/

/-- An instruction completes or is refused by name (R180). -/
theorem exec_ne_fault (i : Instr) (s : State) (f : Fault) : exec i s ≠ .fault f := by
  intro hfault
  by_cases hexecutable : Executable i s.params
  · obtain ⟨t, ht⟩ := exec_completes hexecutable
    cases hfault.symm.trans ht
  · rcases exec_refused hexecutable with e | e | e <;> cases hfault.symm.trans e

/-- Of the five cases of a step only the last, with no guard holding (R206), answers a fault. -/
theorem step_eq_fault_iff (s : State) (f : Fault) : step s = .fault f ↔ s.sampleInputs.arm = .halted := by
  cases harm : s.sampleInputs.arm with
  | hardReset => simp [step_of_hardReset harm]
  | softReset => simp [step_of_softReset harm]
  | interruptEntry => simp [step_of_interruptEntry harm]
  | normalFetch => simp [step_of_normalFetch harm, exec_ne_fault]
  | halted => cases f; simp [step_of_halted harm]

/-- Settles O46: sampling does not move `Run`, so the guard is the one stated. -/
theorem faultExactlyWhenHalted : Obligations.FaultExactlyWhenHalted := by
  intro s f
  rw [step_eq_fault_iff, arm_eq_halted, State.sampleInputs_run]

end Sys2Proof.Machine
